-- ==== Sys2Proof/Word.lean ====
section
/-! DEFINITION. The word types of the SHACAL core: bytes of the buffers, 32-bit words, and word addresses of the
register window (rules R10, R34). -/

namespace Sys2Proof

/-- A byte of `KEY` or `DATA` (R15). -/
abbrev Byte := BitVec 8

/-- A 32-bit word (R10): a schedule word, a working-state word, a command word, a register of the window. -/
abbrev Word := BitVec 32

/-- The port's word address `addr[11:2]` (R34). A transaction names a whole aligned word of the 4096-byte window, so a
narrower, wider or misaligned access (R37, U4) cannot be written down. -/
abbrev WordAddr := BitVec 10

end Sys2Proof
end

