-- ==== Sys2Proof/Config.lean ====
section
/-! DEFINITION. What is fixed for one core: the two variants (R2), the open parameter `BASE` (R43), and the free values,
constants with no body that stand for every value the spec leaves unspecified (93_implementation_defined.md U1, U2, U3,
U8, U11). Nothing in Lean can evaluate a free value. -/

namespace Sys2Proof

/-- The two cipher variants (R2, R14). No other variant exists. -/
inductive Variant where
  /-- SHACAL-1: encoded `V = 0` (R54). -/
  | shacal1
  /-- SHACAL-2: encoded `V = 1` (R54). -/
  | shacal2
  deriving DecidableEq, Repr

/-- What a host read returns where the spec leaves the value unspecified: reads while `BUSY = 1` (R39, U1, U8) and reads
while `rst = 1` (R125, U3). The argument is the state's counter `free`, so each draw is a fresh value. Log entry 1. -/
opaque Config.freeRead : Nat → Word

/-- `SCHED[i]` after the reset numbered by the first argument (R32, R126, U2): any value, chosen once at that reset and
held until an EXPAND writes the word. Log entry 2. -/
opaque Config.schedAfterReset : Nat → Nat → Word

/-- `PENDING` after a reset (R25, R32, U11): any value. Log entry 3. -/
opaque Config.pendingAfterReset : Nat → Word

/-- The base address of the register window in the host's address space, the OPEN parameter `BASE` (R43). -/
opaque Config.base : Nat

end Sys2Proof
end

