-- ==== Sys2Proof/Syntax.lean ====
section
/-! DEFINITION. The ten commands of the core, one constructor per row of the opcode table (R58). No command has an
operand (R56): its operands are the core's registers. -/

namespace Sys2Proof

/-- The commands (R53, R58). A command's syntax takes no operand (R61). -/
inductive Instr where
  /-- `EXPAND.S1`, word `0x00000001` (R78). -/
  | expandS1
  /-- `ENC.S1`, word `0x00000002` (R101). -/
  | encS1
  /-- `DEC.S1`, word `0x00000003` (R102). -/
  | decS1
  /-- `PAD.S1`, word `0x00000004` (R65). -/
  | padS1
  /-- `UNPAD.S1`, word `0x00000005` (R67). -/
  | unpadS1
  /-- `EXPAND.S2`, word `0x00000011` (R79). -/
  | expandS2
  /-- `ENC.S2`, word `0x00000012` (R103). -/
  | encS2
  /-- `DEC.S2`, word `0x00000013` (R104). -/
  | decS2
  /-- `PAD.S2`, word `0x00000014` (R66). -/
  | padS2
  /-- `UNPAD.S2`, word `0x00000015` (R68). -/
  | unpadS2
  deriving DecidableEq, Repr

end Sys2Proof
end

