-- ==== Sys2Proof/Machine/HostSyntax.lean ====
section
/-! DEFINITION. The host agent's syntax: the names of the window's registers (R35), the operations of a host program
(R62), and its source lines with the pseudo-instructions (R62). -/

namespace Sys2Proof.Machine

/-- The registers of the window by name (R35). Every other offset is reserved (R38). -/
inductive HostReg where
  | ctrl
  | status
  | keylen
  | dlen
  | keyw (j : Fin 16)
  | dataw (j : Fin 8)
  | schedw (i : Fin 80)
  deriving DecidableEq, Repr

/-- One operation of an assembled host program (R62). A register access names its word address, so reserved offsets can
be accessed too; a branch names the line it goes to. -/
inductive HostOp where
  /-- `WR <reg>, <imm32>`: `MemWrite(off, 4, imm32)`. -/
  | wr (a : WordAddr) (v : Word)
  /-- `RD t<k>, <reg>`: `t<k> <- MemRead(off, 4)`. -/
  | rd (k : Fin 16) (a : WordAddr)
  /-- `BNZ t<k>, <mask>, <label>`: branch if `t<k> & mask != 0`. -/
  | bnz (k : Fin 16) (mask : Word) (target : Nat)
  /-- The test of `CHECK <code>`: the program stops with a check failure if `t14[6:4] != code`. -/
  | check (code : BitVec 3)
  /-- `HALT` ends the program. -/
  | halt
  deriving DecidableEq, Repr

/-- One source line of a host program: an operation, or a pseudo-instruction with an expansion (R62). A branch names the
source line it goes to. -/
inductive HostLine where
  | wr (r : HostReg) (v : Word)
  | rd (k : Fin 16) (r : HostReg)
  | bnz (k : Fin 16) (mask : Word) (label : Nat)
  | halt
  | cmd (i : Instr)
  | wait
  | run (i : Instr)
  | ldkey (bytes : List Byte)
  | lddata (bytes : List Byte)
  | check (code : BitVec 3)
  deriving DecidableEq, Repr

end Sys2Proof.Machine
end

