-- ==== Sys2Proof/WellFormed.lean ====
section
/-! DEFINITION. The checks on terms before they run. A command has no field (R56), so every `Instr` is well formed; the
checks with content are those on host programs (R62). -/

namespace Sys2Proof

/-- A command carries no immediate, register field or address field (R56): nothing of it can be ill formed. -/
def Instr.wellFormed : Instr → Bool
  | .expandS1 => true
  | .encS1 => true
  | .decS1 => true
  | .padS1 => true
  | .unpadS1 => true
  | .expandS2 => true
  | .encS2 => true
  | .decS2 => true
  | .padS2 => true
  | .unpadS2 => true

namespace Machine

/-- A source line of a program of `n` lines is well formed (R62): a branch goes to a line of the program, `LDKEY` has at
least one byte, `LDDATA` has at most 32 bytes. -/
def HostLine.wellFormed (n : Nat) : HostLine → Bool
  | .wr _ _ => true
  | .rd _ _ => true
  | .bnz _ _ label => decide (label < n)
  | .halt => true
  | .cmd i => i.wellFormed
  | .wait => true
  | .run i => i.wellFormed
  | .ldkey bytes => decide (1 ≤ bytes.length)
  | .lddata bytes => decide (bytes.length ≤ 32)
  | .check _ => true

/-- Every line of a source program is well formed (R62). -/
def wellFormedSource (lines : List HostLine) : Bool :=
  lines.all (HostLine.wellFormed lines.length)

/-- An operation of an assembled program of `n` lines is well formed: a branch goes to a line of the program. -/
def HostOp.wellFormed (n : Nat) : HostOp → Bool
  | .wr _ _ => true
  | .rd _ _ => true
  | .bnz _ _ target => decide (target < n)
  | .check _ => true
  | .halt => true

/-- Every line of an assembled program is well formed. -/
def wellFormedProgram (prog : List HostOp) : Bool :=
  prog.all (HostOp.wellFormed prog.length)

end Machine

end Sys2Proof
end

