-- ==== Sys2Proof/Decode.lean ====
section
/-! DEFINITION. The command decoder, total on all 2^32 words and rejecting by name (R52 to R60), the encoder written
from the same tables, and the mnemonics (R61). -/

namespace Sys2Proof

/-- The operations of the `OP` field (R53). -/
inductive Op where
  | expand
  | enc
  | dec
  | pad
  | unpad
  deriving DecidableEq, Repr

/-- Why a command word is illegal (R55, R59). -/
inductive DecodeError where
  /-- Bits 31:5 (`RSV`) are not all 0 (R52, R59). -/
  | reservedBitsSet
  /-- `OP` is 0 or above 5 (R53). -/
  | illegalOp
  deriving DecidableEq, Repr

/-- The `OP` field, bits 3:0 (R52). -/
def opField (w : Word) : BitVec 4 := w.extractLsb' 0 4

/-- The variant bit `V`, bit 4 (R52). -/
def variantBit (w : Word) : Bool := w.getLsbD 4

/-- The reserved field `RSV`, bits 31:5 (R52). -/
def reservedField (w : Word) : BitVec 27 := w.extractLsb' 5 27

/-- The values of `OP` (R53): 1 to 5 name an operation, the other eleven are illegal. -/
def opOfField (op : BitVec 4) : Option Op :=
  match op.toNat with
  | 1 => some .expand
  | 2 => some .enc
  | 3 => some .dec
  | 4 => some .pad
  | 5 => some .unpad
  | _ => none

/-- The values of `V` (R54). -/
def variantOfBit (v : Bool) : Variant :=
  match v with
  | false => .shacal1
  | true => .shacal2

/-- The command of an operation and a variant (R58). -/
def instrOf : Op → Variant → Instr
  | .expand, .shacal1 => .expandS1
  | .enc, .shacal1 => .encS1
  | .dec, .shacal1 => .decS1
  | .pad, .shacal1 => .padS1
  | .unpad, .shacal1 => .unpadS1
  | .expand, .shacal2 => .expandS2
  | .enc, .shacal2 => .encS2
  | .dec, .shacal2 => .decS2
  | .pad, .shacal2 => .padS2
  | .unpad, .shacal2 => .unpadS2

/-- The decoder (R55): a word is one of the ten legal commands or illegal. A word with `RSV != 0` is illegal whatever
its `OP` and `V` (R59). -/
def decode (w : Word) : Except DecodeError Instr :=
  if reservedField w = 0#27 then
    match opOfField (opField w) with
    | some op => .ok (instrOf op (variantOfBit (variantBit w)))
    | none => .error .illegalOp
  else .error .reservedBitsSet

/-- A command word is legal (R55) exactly if the decoder reads a command from it. -/
def legalWord (w : Word) : Bool :=
  match decode w with
  | .ok _ => true
  | .error _ => false

/-- The operation of a command (R53). -/
def Instr.op : Instr → Op
  | .expandS1 => .expand
  | .encS1 => .enc
  | .decS1 => .dec
  | .padS1 => .pad
  | .unpadS1 => .unpad
  | .expandS2 => .expand
  | .encS2 => .enc
  | .decS2 => .dec
  | .padS2 => .pad
  | .unpadS2 => .unpad

/-- The variant of a command (R54). -/
def Instr.variant : Instr → Variant
  | .expandS1 => .shacal1
  | .encS1 => .shacal1
  | .decS1 => .shacal1
  | .padS1 => .shacal1
  | .unpadS1 => .shacal1
  | .expandS2 => .shacal2
  | .encS2 => .shacal2
  | .decS2 => .shacal2
  | .padS2 => .shacal2
  | .unpadS2 => .shacal2

/-- The `OP` value of an operation (R53). -/
def Op.code : Op → BitVec 4
  | .expand => 1#4
  | .enc => 2#4
  | .dec => 3#4
  | .pad => 4#4
  | .unpad => 5#4

/-- The `V` bit of a variant (R54); also the value of `STATUS.SVAR` (R22). -/
def Variant.bit : Variant → BitVec 1
  | .shacal1 => 0#1
  | .shacal2 => 1#1

/-- The encoder: `RSV` is 0, then `V`, then `OP` (R52). -/
def encode (i : Instr) : Word :=
  0#27 ++ i.variant.bit ++ i.op.code

/-- The mnemonic of a command, `<OP>.S<n>` (R61). -/
def Instr.mnemonic : Instr → String
  | .expandS1 => "EXPAND.S1"
  | .encS1 => "ENC.S1"
  | .decS1 => "DEC.S1"
  | .padS1 => "PAD.S1"
  | .unpadS1 => "UNPAD.S1"
  | .expandS2 => "EXPAND.S2"
  | .encS2 => "ENC.S2"
  | .decS2 => "DEC.S2"
  | .padS2 => "PAD.S2"
  | .unpadS2 => "UNPAD.S2"

/-- The 32-bit word the opcode table's number stands for: the low `nbits` bits of `w`, every bit above them 0. -/
def tableWord (nbits w : Nat) : Word := BitVec.ofNat 32 (w % 2 ^ nbits)

/-- The command the decoder reads from a word numbered as the opcode table numbers it: bit 0 is the least significant
bit of the one 32-bit command word (R51, R60). Anything longer than a command word is none. -/
def decodeTableWord (nbits w : Nat) : Option Instr :=
  if w % 2 ^ nbits < 2 ^ 32 then
    match decode (tableWord nbits w) with
    | .ok i => some i
    | .error _ => none
  else none

end Sys2Proof
end

