-- ==== Sys2Proof/Machine/State.lean ====
section
/-! DEFINITION. The state of the machine: the core's ten pieces of architectural state (R15), the level of its reset
input (R125), the host agent (R62, R118), and what the model adds of its own: the order of turns and the counter of free
values. -/

namespace Sys2Proof.Machine

/-- Who moves in a step: the host with its next operation, the core engine with the command in `PENDING` (R118, R134), or
the platform with a rising clock edge at which `rst` is sampled (R125). -/
inductive Turn where
  | host
  | engine
  | edge (rst : Bool)
  deriving DecidableEq, Repr

/-- How far a host program has come (R62): still running, ended by `HALT`, or stopped by a failed `CHECK`. -/
inductive HostStatus where
  | running
  | halted
  | checkFailed
  deriving DecidableEq, Repr

/-- The host agent: an assembled host program, the line it is at, and the temporaries `t0..t15` (R62). Host state, not
core state (R33). -/
structure HostAgent where
  /-- The assembled program (R62). -/
  prog : List HostOp
  /-- The line the host executes next. -/
  line : Nat
  /-- The host temporaries `t0..t15` (R62). -/
  temps : Vector Word 16
  /-- Whether the program runs, has ended at `HALT`, or has stopped at a failed `CHECK` (R62). -/
  status : HostStatus
  deriving DecidableEq, Repr

/-- Why the machine stops with a fault. The core has no trap and no halted state (R107), so no rule of the spec is here. -/
inductive Fault where
  /-- Raised by the engine's turn alone, when `BUSY = 1` and `PENDING` holds no legal command. No rule leads there: a
  `CTRL` write latches legal words only (R25, R27), so only a state before the first reset can be such (R127, U9).
  Safe: the model stops where the spec gives no behaviour. Log entry 6. -/
  | pendingNotLegal
  deriving DecidableEq, Repr

/-- Why the machine gives an instruction no meaning. -/
inductive Refusal where
  /-- Would be raised by an arm of `exec` for an instruction not modelled yet, by its mnemonic. Every arm has its
  meaning, so nothing raises it. Safe. -/
  | notModelled (mnemonic : String)
  deriving DecidableEq, Repr

/-- The whole state. The first ten fields are the core's architectural state, exactly R15. -/
structure State where
  /-- `KEY[0..63]`, the key buffer (R16). -/
  key : Vector Byte 64
  /-- `KEYLEN`, the raw key's full length in bytes (R17). -/
  keylen : Word
  /-- `DATA[0..31]`, the data buffer (R18). -/
  data : Vector Byte 32
  /-- `DLEN`, the length of the byte string in `DATA` (R19). -/
  dlen : Word
  /-- `SCHED[0..79]`, the resident schedule (R20). -/
  sched : Vector Word 80
  /-- `STATUS.BUSY` (R23). -/
  busy : Bool
  /-- `STATUS.ERR`, 3 bits (R24). -/
  err : BitVec 3
  /-- `STATUS.SVALID` (R21). -/
  svalid : Bool
  /-- `STATUS.SVAR`, the variant of the resident schedule (R22). -/
  svar : Variant
  /-- `PENDING`, the latched command word (R25). -/
  pending : Word
  /-- The level of the reset input `rst` as sampled at the last clock edge (R34, R125). -/
  rst : Bool
  /-- The host agent (R62, R118). -/
  host : HostAgent
  /-- The model's own: who moves in the coming steps, first to last. It stands for the open latency `LAT` (R134): any
  finite number of host turns may come before the engine's. Log entry 4. -/
  turns : List Turn
  /-- The model's own: how many free values have been drawn. Log entry 1. -/
  free : Nat
  deriving DecidableEq, Repr

/-- The host agent as every host program starts: no program placed yet, all temporaries 0 (95_test_vectors.md section 3). -/
def HostAgent.initial : HostAgent where
  prog := []
  line := 0
  temps := Vector.replicate 16 0#32
  status := .running

/-- The machine right after reset (R32, R125): `KEY` and `DATA` all zero, `KEYLEN`, `DLEN` and every `STATUS` field 0,
`SCHED` and `PENDING` unspecified, hence free values. -/
def State.reset : State where
  key := Vector.replicate 64 0#8
  keylen := 0#32
  data := Vector.replicate 32 0#8
  dlen := 0#32
  sched := Vector.ofFn fun i => Config.schedAfterReset 0 i
  busy := false
  err := 0#3
  svalid := false
  svar := .shacal1
  pending := Config.pendingAfterReset 0
  rst := false
  host := HostAgent.initial
  turns := []
  free := 1

end Sys2Proof.Machine
end

