-- ==== Sys2Proof/Machine/Ops.lean ====
section
/-! DEFINITION. The named operations every meaning uses: word arithmetic (R11), byte packing (R12), access to the byte
buffers and the schedule, the ending of a command by `complete` or `raise` (R13, R107), reset (R125), and the choice of
who moves (R118, R134). -/

namespace Sys2Proof.Machine

/-- What a meaning, and a step, answers. -/
abbrev Result := Host.Outcome State Fault Refusal

/-! ### Word arithmetic (R11) -/

/-- `rotl(x, n)`: rotation left by `n`, with `0 < n < 32` (R11). -/
def rotl (x : Word) (n : Nat) : Word := (x <<< n) ||| (x >>> (32 - n))

/-- `rotr(x, n) = rotl(x, 32 - n)`: rotation right by `n` (R11). -/
def rotr (x : Word) (n : Nat) : Word := rotl x (32 - n)

/-- `shr(x, n)`: logical shift right, shifting in zeros (R11). -/
def shr (x : Word) (n : Nat) : Word := x >>> n

/-! ### Byte packing (R12, R36) -/

/-- `BE32(b0, b1, b2, b3)`: the first byte is the most significant (R12). -/
def be32 (b0 b1 b2 b3 : Byte) : Word := b0 ++ b1 ++ b2 ++ b3

/-- Byte `k` of `unBE32(w)`, for `k = 0..3`: byte 0 is bits 31:24 (R12). -/
def unbe32 (w : Word) (k : Nat) : Byte := w.extractLsb' (24 - 8 * k) 8

/-- Word `j` of a byte buffer: bytes `4j..4j+3`, packed big-endian (R36, R85). -/
def getWord {n : Nat} (buf : Vector Byte n) (j : Nat) (h : 4 * j + 3 < n := by omega) : Word :=
  be32 buf[4 * j] buf[4 * j + 1] buf[4 * j + 2] buf[4 * j + 3]

/-- Write word `j` of a byte buffer: bytes `4j..4j+3` get `unBE32(w)`, every other byte stays (R36, R85). -/
def putWord {n : Nat} (buf : Vector Byte n) (j : Nat) (w : Word) (h : 4 * j + 3 < n := by omega) : Vector Byte n :=
  (((buf.set (4 * j) (unbe32 w 0)).set (4 * j + 1) (unbe32 w 1)).set (4 * j + 2) (unbe32 w 2)).set (4 * j + 3)
    (unbe32 w 3)

/-- Schedule word `t` (R20). Every round index of a variant is below 80 (R57). -/
def schedWord (sched : Vector Word 80) (t : Nat) : Word := sched[t]?.getD 0#32

/-! ### How a command ends (R13, R107) -/

/-- The end of a command with a code: `STATUS.ERR` is written once and `BUSY` cleared (R24, R107). -/
def State.finish (s : State) (code : BitVec 3) : State := { s with err := code, busy := false }

/-- `raise <Error>` (R13): the error's code goes to `STATUS.ERR`, and nothing else changes (R110). The core has no trap:
this is all that an error does (R107, R115). -/
def State.raise (s : State) (code : BitVec 3) : Result := .next (s.finish code)

/-- `complete` (R13): `STATUS.ERR <- 0`. -/
def State.complete (s : State) : Result := .next (s.finish 0#3)

/-! ### Reset (R125) -/

/-- The core's registers at their reset values (R32). `SCHED` and `PENDING` become fresh free values (R126, U2, U11).
The host agent is no part of the core and keeps its state. -/
def State.resetCore (s : State) : State :=
  { s with
    key := Vector.replicate 64 0#8
    keylen := 0#32
    data := Vector.replicate 32 0#8
    dlen := 0#32
    sched := Vector.ofFn fun i => Config.schedAfterReset s.free i
    busy := false
    err := 0#3
    svalid := false
    svar := .shacal1
    pending := Config.pendingAfterReset s.free
    free := s.free + 1 }

/-- A rising clock edge at which `rst` is sampled (R125). At 1 the core takes its reset values and any running command is
abandoned (R114, R126); at 0 the core is out of reset. -/
def State.clockEdge (rst : Bool) (s : State) : State :=
  match rst with
  | true => { s.resetCore with rst := true }
  | false => { s with rst := false }

/-! ### Who moves (R118, R134) -/

/-- The agent that moves next: the first of `turns`. With no turn laid down, the engine moves when a command is in
progress and the host otherwise. The engine is thus never kept from its step for ever (weak fairness, R134). -/
def State.mover (s : State) : Turn :=
  match s.turns with
  | t :: _ => t
  | [] => if s.busy && !s.rst then .engine else .host

/-- The state once the first of `turns` is taken. -/
def State.popTurn (s : State) : State := { s with turns := s.turns.tail }

end Sys2Proof.Machine
end

