-- ==== Sys2Proof/Machine/Flags.lean ====
section
/-! DEFINITION. The `STATUS` register (R28) and the error codes of its `ERR` field (R108). -/

namespace Sys2Proof.Machine

/-- `EmptyKey`, code 1 (R108). -/
abbrev Err.emptyKey : BitVec 3 := 1#3
/-- `InvalidBlockLength`, code 2 (R108). -/
abbrev Err.invalidBlockLength : BitVec 3 := 2#3
/-- `InvalidPadding`, code 3 (R108). -/
abbrev Err.invalidPadding : BitVec 3 := 3#3
/-- `NoSchedule`, code 4 (R108). -/
abbrev Err.noSchedule : BitVec 3 := 4#3
/-- `IllegalCommand`, code 5 (R108). -/
abbrev Err.illegalCommand : BitVec 3 := 5#3

/-- The `STATUS` word (R28): `BUSY` in bit 0, `ERR` in bits 6:4, `SVALID` in bit 8, `SVAR` in bit 9; every other bit
reads 0. -/
def statusWord (busy : Bool) (err : BitVec 3) (svalid : Bool) (svar : BitVec 1) : Word :=
  0#22 ++ svar ++ BitVec.ofBool svalid ++ 0#1 ++ err ++ 0#3 ++ BitVec.ofBool busy

/-- The `ERR` field of a `STATUS` word, bits 6:4 (R28). -/
def errField (w : Word) : BitVec 3 := w.extractLsb' 4 3

/-- What a read of `STATUS` returns. While `BUSY = 1`, `ERR`, `SVALID` and `SVAR` are unspecified, `BUSY` reads 1 and the
reserved bits 0 (R28, R39, U8). -/
def State.readStatus (s : State) : Word :=
  if s.busy then
    let w := Config.freeRead s.free
    statusWord true (errField w) (w.getLsbD 8) (w.extractLsb' 9 1)
  else statusWord false s.err s.svalid s.svar.bit

end Sys2Proof.Machine
end

