-- ==== Sys2Proof/Machine/Operands.lean ====
section
/-! DEFINITION. The variant constants (R8, R57), the checks on a command's implicit operands (R56, R111), and the
normalized key (R73, R74). -/

namespace Sys2Proof.Machine

/-- `BS(V)`, the block size in bytes, also the padding block size (R8, R57). -/
def bs : Variant → Nat
  | .shacal1 => 20
  | .shacal2 => 32

/-- `ROUNDS(V)`, also the number of subkeys (R8, R57). -/
def rounds : Variant → Nat
  | .shacal1 => 80
  | .shacal2 => 64

/-- `NW(V)`, the number of state words (R8, R57). -/
def nw : Variant → Nat
  | .shacal1 => 5
  | .shacal2 => 8

/-- `DLEN = BS(V)`: the input is exactly one block (R101 to R104, R67, R68). -/
def State.hasBlock (s : State) (v : Variant) : Bool := s.dlen == BitVec.ofNat 32 (bs v)

/-- `DLEN < BS(V)`: the input is a partial block (R65, R66). -/
def State.hasPartialBlock (s : State) (v : Variant) : Bool := decide (s.dlen.toNat < bs v)

/-- `SVALID = 1` and `SVAR = V`: a schedule of the variant is resident (R101 to R104). -/
def State.hasSchedule (s : State) (v : Variant) : Bool := s.svalid && s.svar == v

/-- `L = min(KEYLEN, 64)`, the number of meaningful bytes in `KEY` (R17, R73). -/
def keyBytes (keylen : Word) : Nat := min keylen.toNat 64

/-- Byte `j` of the normalized key, `NK[j] = KEY[j mod L]` (R73). -/
def normalizedKey (key : Vector Byte 64) (keylen : Word) (j : Nat) (h : j < 64 := by omega) : Byte :=
  key[j % keyBytes keylen]'(Nat.lt_of_le_of_lt (Nat.mod_le _ _) h)

/-- Key word `j`, `M[j] = BE32(NK[4j], NK[4j+1], NK[4j+2], NK[4j+3])` for `j = 0..15` (R74). -/
def keyWord (key : Vector Byte 64) (keylen : Word) (j : Nat) (h : j < 16 := by omega) : Word :=
  be32 (normalizedKey key keylen (4 * j)) (normalizedKey key keylen (4 * j + 1)) (normalizedKey key keylen (4 * j + 2))
    (normalizedKey key keylen (4 * j + 3))

end Sys2Proof.Machine
end

