-- ==== Sys2Proof/Machine/BlockTransform.lean ====
section
/-! DEFINITION. The block transform engine: the rounds of SHACAL-1 (R86 to R91) and SHACAL-2 (R92 to R98), and the
commands `ENC.S1`, `DEC.S1`, `ENC.S2`, `DEC.S2` (R101 to R104). There is no feed-forward (R99) and no chaining (R105). -/

namespace Sys2Proof.Machine

/-! ### SHACAL-1 -/

/-- The SHACAL-1 working state (R85). -/
structure Work1 where
  (a b c d e : Word)
  deriving DecidableEq, Repr

/-- `f_t` (R86): choice, parity, majority, parity, twenty rounds each. -/
def f1 (t : Nat) (x y z : Word) : Word :=
  if t < 20 then (x &&& y) ||| (~~~x &&& z)
  else if t < 40 then x ^^^ y ^^^ z
  else if t < 60 then (x &&& y) ||| (x &&& z) ||| (y &&& z)
  else x ^^^ y ^^^ z

/-- `K1_t` (R87). -/
def k1 (t : Nat) : Word :=
  if t < 20 then 0x5A827999#32
  else if t < 40 then 0x6ED9EBA1#32
  else if t < 60 then 0x8F1BBCDC#32
  else 0xCA62C1D6#32

/-- SHACAL-1 forward round `t` with schedule word `w` (R88). -/
def forward1 (t : Nat) (w : Word) (s : Work1) : Work1 where
  a := rotl s.a 5 + f1 t s.b s.c s.d + s.e + k1 t + w
  b := s.a
  c := rotl s.b 30
  d := s.c
  e := s.d

/-- SHACAL-1 inverse round `t` with schedule word `w` (R89). -/
def inverse1 (t : Nat) (w : Word) (s : Work1) : Work1 :=
  let a := s.b
  let b := rotr s.c 30
  let c := s.d
  let d := s.e
  { a, b, c, d, e := s.a - rotl a 5 - f1 t b c d - k1 t - w }

/-- Forward rounds `0, 1, ..., n-1` in order (R90). -/
def encRounds1 (W : Nat → Word) : Nat → Work1 → Work1
  | 0, s => s
  | t + 1, s => forward1 t (W t) (encRounds1 W t s)

/-- Inverse rounds `n-1, ..., 1, 0` in that order (R91). -/
def decRounds1 (W : Nat → Word) : Nat → Work1 → Work1
  | 0, s => s
  | t + 1, s => decRounds1 W t (inverse1 t (W t) s)

/-- `(a, b, c, d, e) = words(DATA[0..19])` (R85). -/
def load1 (data : Vector Byte 32) : Work1 where
  a := getWord data 0
  b := getWord data 1
  c := getWord data 2
  d := getWord data 3
  e := getWord data 4

/-- `DATA[0..19] <- unwords(a, b, c, d, e)`; `DATA[20..31]` stays (R85, R101). -/
def store1 (data : Vector Byte 32) (s : Work1) : Vector Byte 32 :=
  putWord (putWord (putWord (putWord (putWord data 0 s.a) 1 s.b) 2 s.c) 3 s.d) 4 s.e

/-! ### SHACAL-2 -/

/-- The SHACAL-2 working state (R85). -/
structure Work2 where
  (a b c d e f g h : Word)
  deriving DecidableEq, Repr

/-- `Ch` (R92). -/
def ch (x y z : Word) : Word := (x &&& y) ^^^ (~~~x &&& z)

/-- `Maj` (R92). -/
def maj (x y z : Word) : Word := (x &&& y) ^^^ (x &&& z) ^^^ (y &&& z)

/-- `Sigma0` (R93). -/
def bigSigma0 (x : Word) : Word := rotr x 2 ^^^ rotr x 13 ^^^ rotr x 22

/-- `Sigma1` (R93). -/
def bigSigma1 (x : Word) : Word := rotr x 6 ^^^ rotr x 11 ^^^ rotr x 25

/-- `K2_0 .. K2_63`, row by row as R94 lists them. -/
def k2Table : List Word :=
  [0x428a2f98, 0x71374491, 0xb5c0fbcf, 0xe9b5dba5, 0x3956c25b, 0x59f111f1, 0x923f82a4, 0xab1c5ed5] ++
  [0xd807aa98, 0x12835b01, 0x243185be, 0x550c7dc3, 0x72be5d74, 0x80deb1fe, 0x9bdc06a7, 0xc19bf174] ++
  [0xe49b69c1, 0xefbe4786, 0x0fc19dc6, 0x240ca1cc, 0x2de92c6f, 0x4a7484aa, 0x5cb0a9dc, 0x76f988da] ++
  [0x983e5152, 0xa831c66d, 0xb00327c8, 0xbf597fc7, 0xc6e00bf3, 0xd5a79147, 0x06ca6351, 0x14292967] ++
  [0x27b70a85, 0x2e1b2138, 0x4d2c6dfc, 0x53380d13, 0x650a7354, 0x766a0abb, 0x81c2c92e, 0x92722c85] ++
  [0xa2bfe8a1, 0xa81a664b, 0xc24b8b70, 0xc76c51a3, 0xd192e819, 0xd6990624, 0xf40e3585, 0x106aa070] ++
  [0x19a4c116, 0x1e376c08, 0x2748774c, 0x34b0bcb5, 0x391c0cb3, 0x4ed8aa4a, 0x5b9cca4f, 0x682e6ff3] ++
  [0x748f82ee, 0x78a5636f, 0x84c87814, 0x8cc70208, 0x90befffa, 0xa4506ceb, 0xbef9a3f7, 0xc67178f2]

/-- `K2_t` (R94), for `t = 0..63`. -/
def k2 (t : Nat) : Word := k2Table.getD t 0#32

/-- SHACAL-2 forward round `t` with schedule word `w` (R95). -/
def forward2 (t : Nat) (w : Word) (s : Work2) : Work2 :=
  let t1 := s.h + bigSigma1 s.e + ch s.e s.f s.g + k2 t + w
  let t2 := bigSigma0 s.a + maj s.a s.b s.c
  { a := t1 + t2, b := s.a, c := s.b, d := s.c, e := s.d + t1, f := s.e, g := s.f, h := s.g }

/-- SHACAL-2 inverse round `t` with schedule word `w` (R96). -/
def inverse2 (t : Nat) (w : Word) (s : Work2) : Work2 :=
  let a := s.b
  let b := s.c
  let c := s.d
  let e := s.f
  let f := s.g
  let g := s.h
  let t2 := bigSigma0 a + maj a b c
  let t1 := s.a - t2
  { a, b, c, d := s.e - t1, e, f, g, h := t1 - bigSigma1 e - ch e f g - k2 t - w }

/-- Forward rounds `0, 1, ..., n-1` in order (R97). -/
def encRounds2 (W : Nat → Word) : Nat → Work2 → Work2
  | 0, s => s
  | t + 1, s => forward2 t (W t) (encRounds2 W t s)

/-- Inverse rounds `n-1, ..., 1, 0` in that order (R98). -/
def decRounds2 (W : Nat → Word) : Nat → Work2 → Work2
  | 0, s => s
  | t + 1, s => decRounds2 W t (inverse2 t (W t) s)

/-- `(a, ..., h) = words(DATA[0..31])` (R85). -/
def load2 (data : Vector Byte 32) : Work2 where
  a := getWord data 0
  b := getWord data 1
  c := getWord data 2
  d := getWord data 3
  e := getWord data 4
  f := getWord data 5
  g := getWord data 6
  h := getWord data 7

/-- `DATA[0..31] <- unwords(a, ..., h)` (R85). -/
def store2 (data : Vector Byte 32) (s : Work2) : Vector Byte 32 :=
  putWord (putWord (putWord (putWord (putWord (putWord (putWord (putWord data 0 s.a) 1 s.b) 2 s.c) 3 s.d) 4 s.e) 5 s.f)
    6 s.g) 7 s.h

/-! ### The ciphers on a data buffer -/

/-- `E1` on `DATA[0..19]` (R90). -/
def encrypt1 (sched : Vector Word 80) (data : Vector Byte 32) : Vector Byte 32 :=
  store1 data (encRounds1 (schedWord sched) (rounds .shacal1) (load1 data))

/-- `D1` on `DATA[0..19]` (R91). -/
def decrypt1 (sched : Vector Word 80) (data : Vector Byte 32) : Vector Byte 32 :=
  store1 data (decRounds1 (schedWord sched) (rounds .shacal1) (load1 data))

/-- `E2` on `DATA[0..31]` (R97). -/
def encrypt2 (sched : Vector Word 80) (data : Vector Byte 32) : Vector Byte 32 :=
  store2 data (encRounds2 (schedWord sched) (rounds .shacal2) (load2 data))

/-- `D2` on `DATA[0..31]` (R98). -/
def decrypt2 (sched : Vector Word 80) (data : Vector Byte 32) : Vector Byte 32 :=
  store2 data (decRounds2 (schedWord sched) (rounds .shacal2) (load2 data))

/-! ### The commands -/

/-- A transform command of a variant (R101 to R104): the length is checked first, then the resident schedule (R111);
then the block is transformed in place. -/
def runTransform (v : Variant) (transform : Vector Word 80 → Vector Byte 32 → Vector Byte 32) (s : State) : Result :=
  if s.hasBlock v then
    if s.hasSchedule v then State.complete { s with data := transform s.sched s.data }
    else s.raise Err.noSchedule
  else s.raise Err.invalidBlockLength

/-- `ENC.S1` (R101). -/
def execEncS1 (s : State) : Result := runTransform .shacal1 encrypt1 s

/-- `DEC.S1` (R102). -/
def execDecS1 (s : State) : Result := runTransform .shacal1 decrypt1 s

/-- `ENC.S2` (R103). -/
def execEncS2 (s : State) : Result := runTransform .shacal2 encrypt2 s

/-- `DEC.S2` (R104). -/
def execDecS2 (s : State) : Result := runTransform .shacal2 decrypt2 s

end Sys2Proof.Machine
end

