-- ==== Sys2Proof/Machine/KeySchedule.lean ====
section
/-! DEFINITION. The key schedule expanders: the two recurrences (R75 to R77) and the commands `EXPAND.S1` and
`EXPAND.S2` (R78, R79). -/

namespace Sys2Proof.Machine

/-- `sigma0` of the SHA-256 message schedule (R76). -/
def sigma0 (x : Word) : Word := rotr x 7 ^^^ rotr x 18 ^^^ shr x 3

/-- `sigma1` of the SHA-256 message schedule (R76). -/
def sigma1 (x : Word) : Word := rotr x 17 ^^^ rotr x 19 ^^^ shr x 10

/-- Word `i` of the words `W` made so far. -/
def wordAt (W : List Word) (i : Nat) : Word := W.getD i 0#32

/-- The SHACAL-1 recurrence for `i >= 16` (R75). -/
def recurrence1 (W : List Word) (i : Nat) : Word :=
  rotl (wordAt W (i - 3) ^^^ wordAt W (i - 8) ^^^ wordAt W (i - 14) ^^^ wordAt W (i - 16)) 1

/-- The SHACAL-2 recurrence for `i >= 16`, addition modulo 2^32 (R77). -/
def recurrence2 (W : List Word) (i : Nat) : Word :=
  sigma1 (wordAt W (i - 2)) + wordAt W (i - 7) + sigma0 (wordAt W (i - 15)) + wordAt W (i - 16)

/-- The first `n` schedule words: `W[i] = M[i]` for `i = 0..15`, then the recurrence over the words before (R75, R77). -/
def expandWords (key : Vector Byte 64) (keylen : Word) (next : List Word → Nat → Word) : Nat → List Word
  | 0 => []
  | i + 1 =>
    let W := expandWords key keylen next i
    W ++ [if h : i < 16 then keyWord key keylen i h else next W i]

/-- The recurrence of a variant (R75, R77). -/
def recurrence : Variant → List Word → Nat → Word
  | .shacal1 => recurrence1
  | .shacal2 => recurrence2

/-- The schedule of a key for a variant, `W[0..ROUNDS(V)-1]` (R72). -/
def expandedKey (v : Variant) (key : Vector Byte 64) (keylen : Word) : List Word :=
  expandWords key keylen (recurrence v) (rounds v)

/-- `for i in 0..len(W)-1: SCHED[i] <- W[i]`; every later word stays (R78, R79). -/
def storeSchedule (sched : Vector Word 80) (W : List Word) : Vector Word 80 :=
  Vector.ofFn fun i => W.getD i.val sched[i]

/-- EXPAND of a variant (R78, R79). `SVALID <- 0` comes first, so a failed EXPAND leaves no usable schedule (R110). -/
def runExpand (v : Variant) (s : State) : Result :=
  let s0 := { s with svalid := false }
  if s0.keylen = 0#32 then s0.raise Err.emptyKey
  else
    State.complete
      { s0 with sched := storeSchedule s0.sched (expandedKey v s0.key s0.keylen), svar := v, svalid := true }

/-- `EXPAND.S1` (R78). -/
def execExpandS1 (s : State) : Result := runExpand .shacal1 s

/-- `EXPAND.S2` (R79). -/
def execExpandS2 (s : State) : Result := runExpand .shacal2 s

end Sys2Proof.Machine
end

