-- ==== Sys2Proof/Machine/Padding.lean ====
section
/-! DEFINITION. The padding codec: the source's functions `pad` and `unpad` on whole byte strings (R63, R64), and the
commands `PAD.S1`, `PAD.S2`, `UNPAD.S1`, `UNPAD.S2` (R65 to R68). -/

namespace Sys2Proof.Machine

/-! ### The source's functions -/

/-- `pad(data, bs)`: append `n = bs - (len(data) mod bs)` bytes of value `n` (R63). -/
def padBytes (data : List Byte) (bs : Nat) : List Byte :=
  data ++ List.replicate (bs - data.length % bs) (BitVec.ofNat 8 (bs - data.length % bs))

/-- `unpad(buf, bs)` (R64): `none` is `InvalidPadding`, which an empty buffer gives too (U6). -/
def unpadBytes (buf : List Byte) (bs : Nat) : Option (List Byte) :=
  match buf.getLast? with
  | none => none
  | some last =>
    let n := last.toNat
    if n = 0 ∨ bs < n ∨ buf.length < n ∨ ∃ b ∈ buf.drop (buf.length - n), b ≠ last then none
    else some (buf.take (buf.length - n))

/-! ### Shared operations -/

/-- `for i in from..bs-1: DATA[i] <- n`, with `n = bs - from` (R65, R66). -/
def padFill (data : Vector Byte 32) (start bs : Nat) : Vector Byte 32 :=
  Vector.ofFn fun i => if start ≤ i.val ∧ i.val < bs then BitVec.ofNat 8 (bs - start) else data[i]

/-- The last byte of the block, `DATA[BS-1]` (R67, R68). -/
def lastByte (data : Vector Byte 32) (v : Variant) : Byte :=
  data[bs v - 1]'(by cases v <;> decide)

/-- The padding is valid (R67, R68): `n`, the last byte, is neither 0 nor above `BS`, and each of the last `n` bytes of
the block is `n`. -/
abbrev PaddingValid (data : Vector Byte 32) (v : Variant) : Prop :=
  (lastByte data v).toNat ≠ 0 ∧ (lastByte data v).toNat ≤ bs v ∧
    ∀ i : Fin 32, bs v - (lastByte data v).toNat ≤ i.val → i.val < bs v → data[i] = lastByte data v

/-- PAD of a variant (R65, R66). -/
def runPad (v : Variant) (s : State) : Result :=
  if s.hasPartialBlock v then
    State.complete { s with data := padFill s.data s.dlen.toNat (bs v), dlen := BitVec.ofNat 32 (bs v) }
  else s.raise Err.invalidBlockLength

/-- UNPAD of a variant (R67, R68). `DATA` is never written. -/
def runUnpad (v : Variant) (s : State) : Result :=
  if s.hasBlock v then
    if PaddingValid s.data v then
      State.complete { s with dlen := BitVec.ofNat 32 (bs v - (lastByte s.data v).toNat) }
    else s.raise Err.invalidPadding
  else s.raise Err.invalidBlockLength

/-! ### The commands -/

/-- `PAD.S1` (R65). -/
def execPadS1 (s : State) : Result := runPad .shacal1 s

/-- `PAD.S2` (R66). -/
def execPadS2 (s : State) : Result := runPad .shacal2 s

/-- `UNPAD.S1` (R67). -/
def execUnpadS1 (s : State) : Result := runUnpad .shacal1 s

/-- `UNPAD.S2` (R68). -/
def execUnpadS2 (s : State) : Result := runUnpad .shacal2 s

end Sys2Proof.Machine
end

