-- ==== Sys2Proof/Machine/Dispatch.lean ====
section
/-! DEFINITION. The meaning of every command: the core engine's one atomic step (R26, R134). -/

namespace Sys2Proof.Machine

def exec (i : Instr) (s : State) : Host.Outcome State Fault Refusal :=
  match i with
  | .expandS1 => Sys2Proof.Machine.execExpandS1 s
  | .encS1 => Sys2Proof.Machine.execEncS1 s
  | .decS1 => Sys2Proof.Machine.execDecS1 s
  | .padS1 => Sys2Proof.Machine.execPadS1 s
  | .unpadS1 => Sys2Proof.Machine.execUnpadS1 s
  | .expandS2 => Sys2Proof.Machine.execExpandS2 s
  | .encS2 => Sys2Proof.Machine.execEncS2 s
  | .decS2 => Sys2Proof.Machine.execDecS2 s
  | .padS2 => Sys2Proof.Machine.execPadS2 s
  | .unpadS2 => Sys2Proof.Machine.execUnpadS2 s

end Sys2Proof.Machine
end

