-- ==== Sys2Proof/Machine/Engine.lean ====
section
/-! DEFINITION. The core engine's turn (R118, R134): it performs the command in `PENDING` as one atomic transition. -/

namespace Sys2Proof.Machine

/-- The engine is enabled while a command is in progress (R134) and the core is not held in reset (R125). -/
def State.engineEnabled (s : State) : Bool := s.busy && !s.rst

/-- The engine's turn (R134): it performs the command in `PENDING` by its rule, which clears `BUSY`. With no command in
progress it is idle (R120). -/
def State.engineTurn (s : State) : Result :=
  if s.engineEnabled then
    match decode s.pending with
    | .ok i => exec i s
    | .error _ => .fault .pendingNotLegal
  else .next s

end Sys2Proof.Machine
end

