-- ==== Sys2Proof/Machine/Window.lean ====
section
/-! DEFINITION. The register window (R34 to R42): the register map, what a host read returns and what a host write does,
also while a command is in progress (R39) and while `rst = 1` (R125). -/

namespace Sys2Proof.Machine

/-- The word address of a register of the map (R35): its byte offset divided by 4. -/
def HostReg.addr : HostReg → WordAddr
  | .ctrl => 0x000#10
  | .status => 0x001#10
  | .keylen => 0x002#10
  | .dlen => 0x003#10
  | .keyw j => BitVec.ofNat 10 (0x010 + j.val)
  | .dataw j => BitVec.ofNat 10 (0x020 + j.val)
  | .schedw i => BitVec.ofNat 10 (0x040 + i.val)

/-- The register at a word address (R35); `none` is a reserved offset (R38). -/
def regAt (a : WordAddr) : Option HostReg :=
  let n := a.toNat
  if n = 0 then some .ctrl
  else if n = 1 then some .status
  else if n = 2 then some .keylen
  else if n = 3 then some .dlen
  else if h : 0x010 ≤ n ∧ n < 0x020 then some (.keyw ⟨n - 0x010, by omega⟩)
  else if h : 0x020 ≤ n ∧ n < 0x028 then some (.dataw ⟨n - 0x020, by omega⟩)
  else if h : 0x040 ≤ n ∧ n < 0x090 then some (.schedw ⟨n - 0x040, by omega⟩)
  else none

/-- The byte offset of a word address within the window (R34). -/
def byteOffset (a : WordAddr) : Nat := 4 * a.toNat

/-- Where a word address stands in the host's address space, the window being at `BASE` (R43). -/
def hostAddress (a : WordAddr) : Nat := Config.base + byteOffset a

/-- A register's value as a read sees it: unspecified while `BUSY = 1` (R39, U1). -/
def State.shown (s : State) (w : Word) : Word :=
  if s.busy then Config.freeRead s.free else w

/-- What a host read of the window returns. While `rst = 1` every read is unspecified (R125, U3). Otherwise `CTRL` and
reserved offsets read 0 (R27, R38), and the registers read as R36 and R39 say. -/
def memRead (s : State) (a : WordAddr) : Word :=
  if s.rst then Config.freeRead s.free
  else
    match regAt a with
    | none => 0#32
    | some .ctrl => 0#32
    | some .status => s.readStatus
    | some .keylen => s.shown s.keylen
    | some .dlen => s.shown s.dlen
    | some (.keyw j) => s.shown (getWord s.key j)
    | some (.dataw j) => s.shown (getWord s.data j)
    | some (.schedw i) => s.shown s.sched[i]

/-- A write to `CTRL` with `BUSY = 0` (R27): a legal word is latched into `PENDING` and sets `BUSY`; an illegal word
completes at once with `IllegalCommand` and changes nothing else (R55). -/
def State.writeCtrl (s : State) (v : Word) : State :=
  match decode v with
  | .ok _ => { s with pending := v, busy := true }
  | .error _ => { s with err := Err.illegalCommand }

/-- A host write to the window. It is ignored while `rst = 1` (R125) and while `BUSY = 1` (R39). Writes to `STATUS`, to
`SCHEDW` and to reserved offsets are ignored (R38); a write of `KEYLEN`, `DLEN`, `KEYW` or `DATAW` stores the value and
has no other effect (R40, R42). -/
def memWrite (s : State) (a : WordAddr) (v : Word) : State :=
  if s.rst || s.busy then s
  else
    match regAt a with
    | none => s
    | some .ctrl => s.writeCtrl v
    | some .status => s
    | some .keylen => { s with keylen := v }
    | some .dlen => { s with dlen := v }
    | some (.keyw j) => { s with key := putWord s.key j v }
    | some (.dataw j) => { s with data := putWord s.data j v }
    | some (.schedw _) => s

end Sys2Proof.Machine
end

