-- ==== Sys2Proof/Machine/HostAgent.lean ====
section
/-! DEFINITION. The host agent's turn: one operation of its program (R62), each bus access one indivisible transaction
(R34, R44). -/

namespace Sys2Proof.Machine

/-- The host goes on to the next line. -/
def State.advanceHost (s : State) : State := { s with host := { s.host with line := s.host.line + 1 } }

/-- The host goes on at a line. -/
def State.jumpHost (s : State) (line : Nat) : State := { s with host := { s.host with line := line } }

/-- The host's program ends with a verdict, at the line it is at (R62). -/
def State.stopHost (s : State) (verdict : HostStatus) : State := { s with host := { s.host with status := verdict } }

/-- A host temporary gets a value (R62). -/
def State.setTemp (s : State) (k : Fin 16) (w : Word) : State :=
  { s with host := { s.host with temps := s.host.temps.set k w } }

/-- One operation of the host program (R62). A read draws a free value, whether or not the read shows it. -/
def State.hostOp (s : State) : HostOp → State
  | .wr a v => (memWrite s a v).advanceHost
  | .rd k a => State.advanceHost { s.setTemp k (memRead s a) with free := s.free + 1 }
  | .bnz k mask target => if s.host.temps[k] &&& mask ≠ 0#32 then s.jumpHost target else s.advanceHost
  | .check code => if errField s.host.temps[14] ≠ code then s.stopHost .checkFailed else s.advanceHost
  | .halt => s.stopHost .halted

/-- The operation the host executes next: none once its program has stopped, or where it has no line. -/
def State.nextHostOp (s : State) : Option HostOp :=
  match s.host.status with
  | .running => s.host.prog[s.host.line]?
  | .halted => none
  | .checkFailed => none

/-- The host's turn. With no operation left the host issues no transaction and the core keeps its state (R120). -/
def State.hostTurn (s : State) : State :=
  match s.nextHostOp with
  | some op => s.hostOp op
  | none => s

end Sys2Proof.Machine
end

