-- ==== Sys2Proof/Machine/Step.lean ====
section
/-! DEFINITION. One step of the machine: the turn of the agent that moves (R44, R118, R134), and how the host of this
pipeline places a command where the next step runs it. -/

namespace Sys2Proof.Machine

/-- One step: the host's next operation, the engine's command, or a clock edge at which `rst` is sampled. -/
def step (s : State) : Host.Outcome State Fault Refusal :=
  match s.mover with
  | .host => .next s.popTurn.hostTurn
  | .engine => s.popTurn.engineTurn
  | .edge rst => .next (s.popTurn.clockEdge rst)

/-- The state in which the very next step runs the command word `w`. The core fetches nothing (R29): a command is the
word in `PENDING` while `BUSY = 1` (R25, R47). So the word is latched there with `BUSY = 1`, `rst` is 0, and the engine
has the next turn. Log entry 5. -/
def State.withFetchWord (s : State) (nbits w : Nat) : State :=
  { s with pending := tableWord nbits w, busy := true, rst := false, turns := .engine :: s.turns }

end Sys2Proof.Machine
end

