-- ==== Sys2Proof/Machine/HostProgram.lean ====
section
/-! DEFINITION. The pseudo-instructions of the host-program syntax and their expansions (R62), and the assembly of a
source program into the operations the host executes. -/

namespace Sys2Proof.Machine

/-- `WR <reg>, <imm32>` of a named register (R62). -/
def writeReg (r : HostReg) (v : Word) : HostOp := .wr r.addr v

/-- `CMD <mnemonic>`: write the command's word to `CTRL` (R62). -/
def commandOp (i : Instr) : HostOp := writeReg .ctrl (encode i)

/-- `WAIT` at line `line`: `RD t15, STATUS`, then branch back while `BUSY = 1` (R62). -/
def waitOps (line : Nat) : List HostOp :=
  [.rd 15 HostReg.status.addr, .bnz 15 1#32 line]

/-- Word `j` of a byte string, bytes past its end taken as `0x00` (R62). -/
def wordOfBytes (bytes : List Byte) (j : Nat) : Word :=
  be32 (bytes.getD (4 * j) 0#8) (bytes.getD (4 * j + 1) 0#8) (bytes.getD (4 * j + 2) 0#8) (bytes.getD (4 * j + 3) 0#8)

/-- The transactions that write `KEYW0, KEYW1, ...` from a byte string of at most 64 bytes (R62). -/
def keyWrites (bytes : List Byte) : List (WordAddr × Word) :=
  (List.finRange 16).filterMap fun j =>
    if 4 * j.val < bytes.length then some ((HostReg.keyw j).addr, wordOfBytes bytes j) else none

/-- The transactions that write `DATAW0, DATAW1, ...` from a byte string of at most 32 bytes (R62). -/
def dataWrites (bytes : List Byte) : List (WordAddr × Word) :=
  (List.finRange 8).filterMap fun j =>
    if 4 * j.val < bytes.length then some ((HostReg.dataw j).addr, wordOfBytes bytes j) else none

/-- The transactions of `LDKEY <bytes>`: `KEYLEN` gets the full length, `KEYWj` the first `min(n, 64)` bytes (R62). -/
def loadKeyWrites (bytes : List Byte) : List (WordAddr × Word) :=
  (HostReg.keylen.addr, BitVec.ofNat 32 bytes.length) :: keyWrites (bytes.take 64)

/-- The transactions of `LDDATA <bytes>`: `DLEN` gets the length, `DATAWj` the bytes (R62). -/
def loadDataWrites (bytes : List Byte) : List (WordAddr × Word) :=
  (HostReg.dlen.addr, BitVec.ofNat 32 bytes.length) :: dataWrites bytes

/-- `LDKEY <bytes>` (R62). -/
def loadKeyOps (bytes : List Byte) : List HostOp := (loadKeyWrites bytes).map fun w => .wr w.1 w.2

/-- `LDDATA <bytes>` (R62). -/
def loadDataOps (bytes : List Byte) : List HostOp := (loadDataWrites bytes).map fun w => .wr w.1 w.2

/-- How many operations a source line expands to. -/
def HostLine.size : HostLine → Nat
  | .wr _ _ => 1
  | .rd _ _ => 1
  | .bnz _ _ _ => 1
  | .halt => 1
  | .cmd _ => 1
  | .wait => 2
  | .run _ => 3
  | .ldkey bytes => (loadKeyOps bytes).length
  | .lddata bytes => (loadDataOps bytes).length
  | .check _ => 2

/-- The line of the assembled program at which source line `label` starts. -/
def lineOf (lines : List HostLine) (label : Nat) : Nat :=
  ((lines.take label).map HostLine.size).sum

/-- The expansion of a source line that starts at line `start` (R62). The label of `WAIT` is fresh: it is the line of its
own `RD`. -/
def HostLine.expand (lines : List HostLine) (start : Nat) : HostLine → List HostOp
  | .wr r v => [writeReg r v]
  | .rd k r => [.rd k r.addr]
  | .bnz k mask label => [.bnz k mask (lineOf lines label)]
  | .halt => [.halt]
  | .cmd i => [commandOp i]
  | .wait => waitOps start
  | .run i => commandOp i :: waitOps (start + 1)
  | .ldkey bytes => loadKeyOps bytes
  | .lddata bytes => loadDataOps bytes
  | .check code => [.rd 14 HostReg.status.addr, .check code]

/-- The assembled program of a source program (R62). -/
def assemble (lines : List HostLine) : List HostOp :=
  (lines.zipIdx.map fun p => p.1.expand lines (lineOf lines p.2)).flatten

/-- A state whose host is about to run a program from its first line, with all temporaries 0. -/
def State.withProgram (s : State) (prog : List HostOp) : State :=
  { s with host := { HostAgent.initial with prog := prog } }

end Sys2Proof.Machine
end

