-- ==== Sys2Proof/Machine/Facade.lean ====
section
/-! DEFINITION. The host contract (R121 to R123): the source's `encrypt` and `decrypt` on whole messages, as the register
transactions and commands a host issues that waits for each command. Host software, outside the core (R7); written here
so that the source's message-level guarantee can be stated of the core. -/

namespace Sys2Proof.Machine

/-- What the facade reports (R121, R122). -/
inductive FacadeError where
  /-- A nonzero `STATUS.ERR`, passed on as it is (R123). -/
  | core (code : BitVec 3)
  /-- `InvalidLength`: the ciphertext is empty or not block-aligned; the host's own error (R108, R122). -/
  | invalidLength
  /-- The engine gave no next state. No command does that; the case makes the function total. -/
  | stopped
  deriving DecidableEq, Repr

/-- Host writes, one transaction after another (R44). -/
def State.writeAll (s : State) (writes : List (WordAddr × Word)) : State :=
  writes.foldl (fun s w => memWrite s w.1 w.2) s

/-- `RUN <mnemonic>` and the check of `ERR` (R62, R123): write the command's word to `CTRL`, wait for the engine's turn,
read `STATUS`, pass an error on. -/
def runCommand (s : State) (i : Instr) : Except FacadeError State :=
  match (memWrite s HostReg.ctrl.addr (encode i)).engineTurn with
  | .next t =>
    let code := errField (memRead t HostReg.status.addr)
    if code = 0#3 then .ok t else .error (.core code)
  | .fault _ => .error .stopped
  | .refused _ => .error .stopped

/-- The bytes of `DATAW0 .. DATAW(NW-1)` read back: one block (R121). -/
def readBlock (s : State) (v : Variant) : List Byte :=
  ((List.finRange 8).filter (·.val < nw v)).flatMap fun j =>
    let w := memRead s (HostReg.dataw j).addr
    [unbe32 w 0, unbe32 w 1, unbe32 w 2, unbe32 w 3]

/-- The commands of a variant (R58, R121, R122). -/
def commandOf (op : Op) (v : Variant) : Instr := instrOf op v

/-- Load the key and expand it (R121 steps 1 to 3). The host reports an empty key itself. -/
def loadKeyAndExpand (v : Variant) (key : List Byte) (s : State) : Except FacadeError State :=
  if key = [] then .error (.core Err.emptyKey)
  else runCommand (s.writeAll (loadKeyWrites key)) (commandOf .expand v)

/-- Transform blocks one after another, each independently (R121 step 4, R122 step 3). -/
def transformBlocks (v : Variant) (op : Op) : List (List Byte) → State → Except FacadeError (State × List Byte)
  | [], s => .ok (s, [])
  | block :: rest, s =>
    match runCommand (s.writeAll (loadDataWrites block)) (commandOf op v) with
    | .error e => .error e
    | .ok t =>
      match transformBlocks v op rest t with
      | .error e => .error e
      | .ok (u, out) => .ok (u, readBlock t v ++ out)

/-- The first `q` blocks of `bs` bytes of a byte string. -/
def blocksOf (bs : Nat) (bytes : List Byte) : Nat → List (List Byte)
  | 0 => []
  | q + 1 => bytes.take bs :: blocksOf bs (bytes.drop bs) q

/-- The final partial block: load its bytes, pad, encrypt, read back (R121 step 5). -/
def encryptLast (v : Variant) (bytes : List Byte) (s : State) : Except FacadeError (State × List Byte) :=
  match runCommand (s.writeAll (loadDataWrites bytes)) (commandOf .pad v) with
  | .error e => .error e
  | .ok t =>
    match runCommand t (commandOf .enc v) with
    | .error e => .error e
    | .ok u => .ok (u, readBlock u v)

/-- Host `encrypt(plaintext, key, variant)` (R121). -/
def facadeEncrypt (v : Variant) (key plaintext : List Byte) (s : State) : Except FacadeError (State × List Byte) :=
  let q := plaintext.length / bs v
  match loadKeyAndExpand v key s with
  | .error e => .error e
  | .ok s1 =>
    match transformBlocks v .enc (blocksOf (bs v) plaintext q) s1 with
    | .error e => .error e
    | .ok (s2, out) =>
      match encryptLast v (plaintext.drop (q * bs v)) s2 with
      | .error e => .error e
      | .ok (s3, last) => .ok (s3, out ++ last)

/-- Host `decrypt(ciphertext, key, variant)` (R122). `UNPAD.Sx` runs on the last block while it is still in `DATA`; the
plaintext is the earlier blocks and the first `DLEN` bytes of the last. -/
def facadeDecrypt (v : Variant) (key ciphertext : List Byte) (s : State) : Except FacadeError (State × List Byte) :=
  let k := ciphertext.length / bs v
  if ciphertext.length = 0 ∨ ciphertext.length % bs v ≠ 0 then .error .invalidLength
  else
    match loadKeyAndExpand v key s with
    | .error e => .error e
    | .ok s1 =>
      match transformBlocks v .dec (blocksOf (bs v) ciphertext k) s1 with
      | .error e => .error e
      | .ok (s2, out) =>
        match runCommand s2 (commandOf .unpad v) with
        | .error e => .error e
        | .ok s3 => .ok (s3, out.take ((k - 1) * bs v + (memRead s3 HostReg.dlen.addr).toNat))

end Sys2Proof.Machine
end

