-- ==== Sys2Proof/Safety.lean ====
section
/-! DEFINITION. What claims about a run are stated in: the invariant of every state reached from reset, the host's duty to
wait (R129), and the end of a run with its observable result (R137). -/

namespace Sys2Proof.Machine

/-- `STATUS.ERR` is 0 to 5: the core never writes 6 or 7 (R28, U13). -/
abbrev State.ErrLegal (s : State) : Prop := s.err.toNat ≤ 5

/-- The word the engine is about to run is a legal command (R25, R27). -/
abbrev State.PendingLegal (s : State) : Prop := s.busy = true → legalWord s.pending = true

/-- While `rst = 1` every register is held at its reset value (R32, R125); `SCHED` and `PENDING` have none. -/
abbrev State.HeldInReset (s : State) : Prop :=
  s.rst = true → s.key = Vector.replicate 64 0#8 ∧ s.keylen = 0#32 ∧ s.data = Vector.replicate 32 0#8 ∧ s.dlen = 0#32 ∧
    s.busy = false ∧ s.err = 0#3 ∧ s.svalid = false ∧ s.svar = .shacal1

/-- A schedule that claims to be valid is complete (R21, R46): its words satisfy the recurrence of its variant, that of
R75 for SHACAL1 and that of R77 for SHACAL2. -/
abbrev State.ScheduleGenuine (s : State) : Prop :=
  s.svalid = true →
    match s.svar with
    | .shacal1 => ∀ i : Fin 80, (h : 16 ≤ i.val) →
        s.sched[i] = rotl (s.sched[i.val - 3] ^^^ s.sched[i.val - 8] ^^^ s.sched[i.val - 14] ^^^ s.sched[i.val - 16]) 1
    | .shacal2 => ∀ i : Fin 80, (h : 16 ≤ i.val) → i.val < 64 →
        s.sched[i] = sigma1 s.sched[i.val - 2] + s.sched[i.val - 7] + sigma0 s.sched[i.val - 15] + s.sched[i.val - 16]

/-- The invariant of every state reached from reset. A launch state must satisfy it (R127, U9). -/
structure State.Inv (s : State) : Prop where
  errLegal : s.ErrLegal
  pendingLegal : s.PendingLegal
  heldInReset : s.HeldInReset
  scheduleGenuine : s.ScheduleGenuine

/-- The host's next operation breaks its duty to wait (R129): it is a write, or a read of anything but `STATUS`, while
`BUSY = 1`. -/
def State.hostHazard (s : State) : Bool :=
  s.busy &&
    match s.nextHostOp with
    | some (.wr _ _) => true
    | some (.rd _ a) => decide (a ≠ HostReg.status.addr)
    | some (.bnz _ _ _) => false
    | some (.check _) => false
    | some .halt => false
    | none => false

/-- A run has ended (R137): the host program is at `HALT` and `BUSY = 0`. -/
def State.runEnded (s : State) : Bool := decide (s.host.status = .halted) && !s.busy

/-- The readable registers of the window (R35), in the order of their offsets. -/
def readableRegs : List HostReg :=
  [.status, .keylen, .dlen] ++ (List.finRange 16).map .keyw ++ (List.finRange 8).map .dataw ++
    (List.finRange 80).map .schedw

/-- The observable result of a run that has ended (R137): what the host reads from the registers, and its temporaries.
The registers are read in the order of their offsets, each read with a draw of its own, so that where a run ends with
`rst = 1`, and every read is unspecified (R125, U3), each register shows a fresh free value. DESIGN CHOICE, log entry 20:
the spec fixes no order for these reads and no relation between their values. -/
def State.observed (s : State) : List Word × Vector Word 16 :=
  (readableRegs.zipIdx.map fun p => memRead { s with free := s.free + p.2 } p.1.addr, s.host.temps)

end Sys2Proof.Machine
end

