-- ==== Sys2Proof/Certificates/Slice0/Obligations.lean ====
section
/-! DEFINITION. The statements for the provers, each about the machine of `Sys2Proof/Machine/`. A command's success is
written as the state before with the fields it writes replaced, so every other field of the state is unchanged: the
command's frame. -/

open Sys2Proof Sys2Proof.Machine

/-! ### Encoding -/

/-- R58: the ten legal command words, each matched on all 32 bits. -/
def Obligations.DecoderReadsExactlyTheTenWords : Prop :=
  ∀ w : Word,
    (decode w = .ok .expandS1 ↔ w = 0x00000001#32) ∧ (decode w = .ok .encS1 ↔ w = 0x00000002#32) ∧
    (decode w = .ok .decS1 ↔ w = 0x00000003#32) ∧ (decode w = .ok .padS1 ↔ w = 0x00000004#32) ∧
    (decode w = .ok .unpadS1 ↔ w = 0x00000005#32) ∧ (decode w = .ok .expandS2 ↔ w = 0x00000011#32) ∧
    (decode w = .ok .encS2 ↔ w = 0x00000012#32) ∧ (decode w = .ok .decS2 ↔ w = 0x00000013#32) ∧
    (decode w = .ok .padS2 ↔ w = 0x00000014#32) ∧ (decode w = .ok .unpadS2 ↔ w = 0x00000015#32)

/-- R55: a word is legal iff its bits 31:5 are 0 and its bits 3:0 are 1 to 5, equivalently iff it is one of the ten words
of the table; an illegal word written to `CTRL` while `BUSY = 0` sets `ERR` to 5 and changes nothing else (out of
reset). -/
def Obligations.LegalWordsAndTheFateOfIllegalOnes : Prop :=
  (∀ w : Word, legalWord w = true ↔ w.toNat / 2 ^ 5 = 0 ∧ 1 ≤ w.toNat % 2 ^ 4 ∧ w.toNat % 2 ^ 4 ≤ 5) ∧
  (∀ w : Word, legalWord w = true ↔ w.toNat ∈ [0x01, 0x02, 0x03, 0x04, 0x05, 0x11, 0x12, 0x13, 0x14, 0x15]) ∧
  (∀ (s : State) (w : Word), s.busy = false → s.rst = false → legalWord w = false →
    memWrite s HostReg.ctrl.addr w = { s with err := 5#3 })

/-- R52 to R54: decoding the encoding of a well-formed command gives the command back. -/
def Obligations.DecodeOfEncodeGivesTheCommandBack : Prop :=
  ∀ i : Instr, i.wellFormed = true → decode (encode i) = .ok i

/-- R58: words written out from the encoding table, and words that R59 calls illegal. -/
def Obligations.WordsWrittenOutDecodeAsTheTableSays : Prop :=
  decode 0b00000000000000000000000000000001#32 = .ok .expandS1 ∧
  decode 0b00000000000000000000000000010011#32 = .ok .decS2 ∧
  decode 0b00000000000000000000000000000100#32 = .ok .padS1 ∧
  decode 0b00000000000000000000000000010101#32 = .ok .unpadS2 ∧
  decode 0x00000021#32 = .error .reservedBitsSet ∧ decode 0x00000010#32 = .error .illegalOp

/-! ### The step -/

/-- R134: when the engine moves with a command in progress and out of reset, the step is the meaning of the command in
`PENDING`, on the state with that turn taken. The list of turns is the model's own (log entry 4). -/
def Obligations.StepRunsTheCommandInPending : Prop :=
  ∀ (s : State) (i : Instr), s.mover = .engine → s.busy = true → s.rst = false → decode s.pending = .ok i →
    step s = exec i { s with turns := s.turns.tail }

/-- Log entry 5: the state in which a command is placed for the next step runs exactly that command, on a state that
differs from the given one in `PENDING`, `BUSY` and `rst` alone. The placing is the model's own. -/
def Obligations.PlacedCommandIsRunByTheNextStep : Prop :=
  ∀ (s : State) (i : Instr),
    step (s.withFetchWord 32 (encode i).toNat) = exec i { s with pending := encode i, busy := true, rst := false }

/-! ### Padding -/

/-- R65: `PAD.S1`. -/
def Obligations.PadS1FillsThePartialBlock : Prop :=
  decode 0x00000004#32 = .ok .padS1 ∧
  ∀ s : State,
    (s.dlen.toNat < 20 → ∃ d : Vector Byte 32,
      exec .padS1 s = .next { s with data := d, dlen := 20#32, err := 0#3, busy := false } ∧
      ∀ i : Fin 32, d[i] = if s.dlen.toNat ≤ i.val ∧ i.val < 20 then BitVec.ofNat 8 (20 - s.dlen.toNat) else s.data[i]) ∧
    (20 ≤ s.dlen.toNat → exec .padS1 s = .next { s with err := 2#3, busy := false })

/-- R66: `PAD.S2`. -/
def Obligations.PadS2FillsThePartialBlock : Prop :=
  decode 0x00000014#32 = .ok .padS2 ∧
  ∀ s : State,
    (s.dlen.toNat < 32 → ∃ d : Vector Byte 32,
      exec .padS2 s = .next { s with data := d, dlen := 32#32, err := 0#3, busy := false } ∧
      ∀ i : Fin 32, d[i] = if s.dlen.toNat ≤ i.val then BitVec.ofNat 8 (32 - s.dlen.toNat) else s.data[i]) ∧
    (32 ≤ s.dlen.toNat → exec .padS2 s = .next { s with err := 2#3, busy := false })

/-- R67: `UNPAD.S1`, with `n` the last byte `DATA[19]`. -/
def Obligations.UnpadS1StripsValidPadding : Prop :=
  decode 0x00000005#32 = .ok .unpadS1 ∧
  ∀ s : State,
    (s.dlen ≠ 20#32 → exec .unpadS1 s = .next { s with err := 2#3, busy := false }) ∧
    (s.dlen = 20#32 → (1 ≤ s.data[19].toNat ∧ s.data[19].toNat ≤ 20 ∧
        ∀ i : Fin 32, 20 - s.data[19].toNat ≤ i.val → i.val < 20 → s.data[i] = s.data[19]) →
      exec .unpadS1 s =
        .next { s with dlen := BitVec.ofNat 32 (20 - s.data[19].toNat), err := 0#3, busy := false }) ∧
    (s.dlen = 20#32 → ¬(1 ≤ s.data[19].toNat ∧ s.data[19].toNat ≤ 20 ∧
        ∀ i : Fin 32, 20 - s.data[19].toNat ≤ i.val → i.val < 20 → s.data[i] = s.data[19]) →
      exec .unpadS1 s = .next { s with err := 3#3, busy := false })

/-- R68: `UNPAD.S2`, with `n` the last byte `DATA[31]`. -/
def Obligations.UnpadS2StripsValidPadding : Prop :=
  decode 0x00000015#32 = .ok .unpadS2 ∧
  ∀ s : State,
    (s.dlen ≠ 32#32 → exec .unpadS2 s = .next { s with err := 2#3, busy := false }) ∧
    (s.dlen = 32#32 → (1 ≤ s.data[31].toNat ∧ s.data[31].toNat ≤ 32 ∧
        ∀ i : Fin 32, 32 - s.data[31].toNat ≤ i.val → s.data[i] = s.data[31]) →
      exec .unpadS2 s =
        .next { s with dlen := BitVec.ofNat 32 (32 - s.data[31].toNat), err := 0#3, busy := false }) ∧
    (s.dlen = 32#32 → ¬(1 ≤ s.data[31].toNat ∧ s.data[31].toNat ≤ 32 ∧
        ∀ i : Fin 32, 32 - s.data[31].toNat ≤ i.val → s.data[i] = s.data[31]) →
      exec .unpadS2 s = .next { s with err := 3#3, busy := false })

/-- R63: the length of `pad(data, bs)` is the smallest multiple of `bs` greater than the length of `data`; the bytes
appended number 1 to `bs` and each holds their number. -/
def Obligations.PaddedLengthIsTheNextMultiple : Prop :=
  ∀ (data : List Byte) (n : Nat), 0 < n →
    (padBytes data n).length % n = 0 ∧ data.length < (padBytes data n).length ∧
    (padBytes data n).length ≤ data.length + n ∧ (padBytes data n).take data.length = data ∧
    ∀ b ∈ (padBytes data n).drop data.length, b = BitVec.ofNat 8 (n - data.length % n)

/-- R63, R64: `unpad` undoes `pad`, for every block size whose padding value fits a byte. -/
def Obligations.UnpadUndoesPad : Prop :=
  ∀ (data : List Byte) (n : Nat), 0 < n → n < 256 → unpadBytes (padBytes data n) n = some data

/-- R69, first item: `pad(m, BS)` is the full blocks of `m` followed by `DATA[0..BS-1]` after `PAD.Sx` has run on the
rest of `m`. -/
def Obligations.PadCommandComputesTheSourcesPad : Prop :=
  ∀ (v : Variant) (m : List Byte) (s : State),
    s.dlen.toNat = m.length % bs v →
    s.data.toList.take (m.length % bs v) = m.drop (m.length / bs v * bs v) →
    ∃ t, exec (instrOf .pad v) s = .next t ∧ t.err = 0#3 ∧ t.dlen.toNat = bs v ∧
      padBytes m (bs v) = m.take (m.length / bs v * bs v) ++ t.data.toList.take (bs v)

/-- R69, second item: `unpad(c, BS)` fails exactly when `UNPAD.Sx` on the last block of `c` raises `InvalidPadding`, and
otherwise is the earlier blocks followed by `DATA[0..DLEN-1]` after the command. -/
def Obligations.UnpadCommandComputesTheSourcesUnpad : Prop :=
  ∀ (v : Variant) (c : List Byte) (k : Nat) (s : State),
    1 ≤ k → c.length = k * bs v → s.dlen.toNat = bs v →
    s.data.toList.take (bs v) = c.drop ((k - 1) * bs v) →
    ∃ t, exec (instrOf .unpad v) s = .next t ∧ (t.err = 0#3 ∨ t.err = 3#3) ∧
      (unpadBytes c (bs v) = none ↔ t.err = 3#3) ∧
      (t.err = 0#3 → unpadBytes c (bs v) = some (c.take ((k - 1) * bs v) ++ t.data.toList.take t.dlen.toNat))

/-- R71, the general case, for both variants: changing the last byte of a validly padded block from `n >= 2` to any other
`n' >= 2` makes `UNPAD.Sx` raise `InvalidPadding`. Other changed last bytes may pass (R71). -/
def Obligations.TamperedRunOfTwoOrMoreIsRejected : Prop :=
  ∀ (v : Variant) (s : State) (n : Byte), s.dlen.toNat = bs v → PaddingValid s.data v →
    2 ≤ (lastByte s.data v).toNat → 2 ≤ n.toNat → n ≠ lastByte s.data v →
    let u := { s with data := s.data.set (bs v - 1) n (by cases v <;> decide) }
    exec (instrOf .unpad v) u = .next { u with err := 3#3, busy := false }

/-! ### Key schedules -/

/-- R78: `EXPAND.S1`, with `L = min(KEYLEN, 64)` and `NK[j] = KEY[j mod L]` written out (R73, R74, R75). -/
def Obligations.ExpandS1DerivesTheSchedule : Prop :=
  decode 0x00000001#32 = .ok .expandS1 ∧
  ∀ s : State,
    (s.keylen = 0#32 → exec .expandS1 s = .next { s with svalid := false, err := 1#3, busy := false }) ∧
    (s.keylen ≠ 0#32 → ∃ W : Vector Word 80,
      exec .expandS1 s =
        .next { s with sched := W, svalid := true, svar := .shacal1, err := 0#3, busy := false } ∧
      (∀ j : Fin 16, ∀ nk : Nat → Byte, (∀ i, nk i = s.key.toList.getD (i % min s.keylen.toNat 64) 0#8) →
        W[j.val].toNat = (nk (4 * j)).toNat * 2 ^ 24 + (nk (4 * j + 1)).toNat * 2 ^ 16 + (nk (4 * j + 2)).toNat * 2 ^ 8 +
          (nk (4 * j + 3)).toNat) ∧
      (∀ i : Fin 80, (h : 16 ≤ i.val) →
        W[i] = (W[i.val - 3] ^^^ W[i.val - 8] ^^^ W[i.val - 14] ^^^ W[i.val - 16]).rotateLeft 1))

/-- R79: `EXPAND.S2`; `SCHED[64..79]` keeps its words (R73, R74, R76, R77). -/
def Obligations.ExpandS2DerivesTheSchedule : Prop :=
  decode 0x00000011#32 = .ok .expandS2 ∧
  ∀ s : State,
    (s.keylen = 0#32 → exec .expandS2 s = .next { s with svalid := false, err := 1#3, busy := false }) ∧
    (s.keylen ≠ 0#32 → ∃ W : Vector Word 80,
      exec .expandS2 s =
        .next { s with sched := W, svalid := true, svar := .shacal2, err := 0#3, busy := false } ∧
      (∀ j : Fin 16, ∀ nk : Nat → Byte, (∀ i, nk i = s.key.toList.getD (i % min s.keylen.toNat 64) 0#8) →
        W[j.val].toNat = (nk (4 * j)).toNat * 2 ^ 24 + (nk (4 * j + 1)).toNat * 2 ^ 16 + (nk (4 * j + 2)).toNat * 2 ^ 8 +
          (nk (4 * j + 3)).toNat) ∧
      (∀ i : Fin 80, (h : 16 ≤ i.val) → i.val < 64 →
        W[i] = ((W[i.val - 2]).rotateRight 17 ^^^ (W[i.val - 2]).rotateRight 19 ^^^ W[i.val - 2] >>> 10) + W[i.val - 7] +
          ((W[i.val - 15]).rotateRight 7 ^^^ (W[i.val - 15]).rotateRight 18 ^^^ W[i.val - 15] >>> 3) + W[i.val - 16]) ∧
      (∀ i : Fin 80, 64 ≤ i.val → W[i] = s.sched[i]))

/-- R81: two keys give the same schedule for a variant iff their normalized keys are equal. -/
def Obligations.SameScheduleIffSameNormalizedKey : Prop :=
  ∀ (v : Variant) (s s' : State), s.keylen ≠ 0#32 → s'.keylen ≠ 0#32 →
    ∃ t t', exec (instrOf .expand v) s = .next t ∧ exec (instrOf .expand v) s' = .next t' ∧
      ((∀ i : Fin 80, i.val < rounds v → t.sched[i] = t'.sched[i]) ↔
        ∀ j : Fin 64, s.key.toList.getD (j.val % min s.keylen.toNat 64) 0#8 =
          s'.key.toList.getD (j.val % min s'.keylen.toNat 64) 0#8)

/-! ### Block transform -/

/-- R88 with R86 and R87: one SHACAL-1 forward round, the round function and constant written out by ranges of `t`. -/
def Obligations.Shacal1ForwardRoundByRanges : Prop :=
  ∀ (t : Nat) (w a b c d e : Word),
    let r (f k : Word) : Work1 :=
      { a := a.rotateLeft 5 + f + e + k + w, b := a, c := b.rotateLeft 30, d := c, e := d }
    (t < 20 → forward1 t w ⟨a, b, c, d, e⟩ = r ((b &&& c) ||| (~~~b &&& d)) 0x5A827999#32) ∧
    (20 ≤ t → t < 40 → forward1 t w ⟨a, b, c, d, e⟩ = r (b ^^^ c ^^^ d) 0x6ED9EBA1#32) ∧
    (40 ≤ t → t < 60 → forward1 t w ⟨a, b, c, d, e⟩ = r ((b &&& c) ||| (b &&& d) ||| (c &&& d)) 0x8F1BBCDC#32) ∧
    (60 ≤ t → t < 80 → forward1 t w ⟨a, b, c, d, e⟩ = r (b ^^^ c ^^^ d) 0xCA62C1D6#32)

/-- R95 with R92 and R93: one SHACAL-2 forward round, with the mixing functions written out. -/
def Obligations.Shacal2ForwardRound : Prop :=
  ∀ (t : Nat) (w a b c d e f g h : Word),
    let t1 := h + (e.rotateRight 6 ^^^ e.rotateRight 11 ^^^ e.rotateRight 25) + ((e &&& f) ^^^ (~~~e &&& g)) + k2 t + w
    let t2 := (a.rotateRight 2 ^^^ a.rotateRight 13 ^^^ a.rotateRight 22) + ((a &&& b) ^^^ (a &&& c) ^^^ (b &&& c))
    forward2 t w ⟨a, b, c, d, e, f, g, h⟩ = ⟨t1 + t2, a, b, c, d + t1, e, f, g⟩

/-- R94: `K2_t` is the first 32 bits of the fractional part of the cube root of the `t`-th of the first 64 primes: with
`a` the integer part, `(a * 2^32 + K2_t)^3 <= p * 2^96` and the next number's cube is above. R87: `K1_t` is
`floor(sqrt(n) * 2^30)` for 2, 3, 5, 10. The values that the rules spell out are stated too. -/
def Obligations.RoundConstantsComeFromTheirRoots : Prop :=
  (∀ t : Fin 64, ∃ p a : Nat, p.Prime ∧ ((List.range p).filter Nat.Prime).length = t.val ∧
    (a * 2 ^ 32 + (k2 t).toNat) ^ 3 ≤ p * 2 ^ 96 ∧ p * 2 ^ 96 < (a * 2 ^ 32 + (k2 t).toNat + 1) ^ 3) ∧
  (∀ t : Fin 80, ∃ n : Nat, n = (if t.val < 20 then 2 else if t.val < 40 then 3 else if t.val < 60 then 5 else 10) ∧
    (k1 t).toNat ^ 2 ≤ n * 2 ^ 60 ∧ n * 2 ^ 60 < ((k1 t).toNat + 1) ^ 2) ∧
  k2 0 = 0x428a2f98#32 ∧ k2 8 = 0xd807aa98#32 ∧ k2 63 = 0xc67178f2#32 ∧
  ∀ t : Fin 80, k1 t = if t.val < 20 then 0x5A827999#32 else if t.val < 40 then 0x6ED9EBA1#32
    else if t.val < 60 then 0x8F1BBCDC#32 else 0xCA62C1D6#32

/-- R89 and R96: each inverse round undoes the forward round of the same index and schedule word, and the other way
round. -/
def Obligations.InverseRoundsUndoForwardRounds : Prop :=
  (∀ (t : Nat) (w : Word) (s : Work1), inverse1 t w (forward1 t w s) = s ∧ forward1 t w (inverse1 t w s) = s) ∧
  (∀ (t : Nat) (w : Word) (s : Work2), inverse2 t w (forward2 t w s) = s ∧ forward2 t w (inverse2 t w s) = s)

/-- R101: `ENC.S1` runs the eighty forward rounds on the words of `DATA[0..19]`; there is no feed-forward (R99). -/
def Obligations.EncS1RunsEightyForwardRounds : Prop :=
  decode 0x00000002#32 = .ok .encS1 ∧
  ∀ s : State,
    (s.dlen ≠ 20#32 → exec .encS1 s = .next { s with err := 2#3, busy := false }) ∧
    (s.dlen = 20#32 → ¬(s.svalid = true ∧ s.svar = .shacal1) → exec .encS1 s = .next { s with err := 4#3, busy := false }) ∧
    (s.dlen = 20#32 → s.svalid = true → s.svar = .shacal1 → ∃ (d : Vector Byte 32) (r : Nat → Work1),
      exec .encS1 s = .next { s with data := d, err := 0#3, busy := false } ∧
      r 0 = ⟨getWord s.data 0, getWord s.data 1, getWord s.data 2, getWord s.data 3, getWord s.data 4⟩ ∧
      (∀ t : Fin 80, r (t.val + 1) = forward1 t.val s.sched[t] (r t.val)) ∧
      r 80 = ⟨getWord d 0, getWord d 1, getWord d 2, getWord d 3, getWord d 4⟩ ∧
      ∀ i : Fin 32, 20 ≤ i.val → d[i] = s.data[i])

/-- R102: `DEC.S1` runs the eighty inverse rounds, from round 79 down to round 0. -/
def Obligations.DecS1RunsEightyInverseRounds : Prop :=
  decode 0x00000003#32 = .ok .decS1 ∧
  ∀ s : State,
    (s.dlen ≠ 20#32 → exec .decS1 s = .next { s with err := 2#3, busy := false }) ∧
    (s.dlen = 20#32 → ¬(s.svalid = true ∧ s.svar = .shacal1) → exec .decS1 s = .next { s with err := 4#3, busy := false }) ∧
    (s.dlen = 20#32 → s.svalid = true → s.svar = .shacal1 → ∃ (d : Vector Byte 32) (r : Nat → Work1),
      exec .decS1 s = .next { s with data := d, err := 0#3, busy := false } ∧
      r 80 = ⟨getWord s.data 0, getWord s.data 1, getWord s.data 2, getWord s.data 3, getWord s.data 4⟩ ∧
      (∀ t : Fin 80, r t.val = inverse1 t.val s.sched[t] (r (t.val + 1))) ∧
      r 0 = ⟨getWord d 0, getWord d 1, getWord d 2, getWord d 3, getWord d 4⟩ ∧
      ∀ i : Fin 32, 20 ≤ i.val → d[i] = s.data[i])

/-- R103: `ENC.S2` runs the sixty-four forward rounds on the words of `DATA[0..31]`; there is no feed-forward (R99). -/
def Obligations.EncS2RunsSixtyFourForwardRounds : Prop :=
  decode 0x00000012#32 = .ok .encS2 ∧
  ∀ s : State,
    (s.dlen ≠ 32#32 → exec .encS2 s = .next { s with err := 2#3, busy := false }) ∧
    (s.dlen = 32#32 → ¬(s.svalid = true ∧ s.svar = .shacal2) → exec .encS2 s = .next { s with err := 4#3, busy := false }) ∧
    (s.dlen = 32#32 → s.svalid = true → s.svar = .shacal2 → ∃ (d : Vector Byte 32) (r : Nat → Work2),
      exec .encS2 s = .next { s with data := d, err := 0#3, busy := false } ∧
      r 0 = ⟨getWord s.data 0, getWord s.data 1, getWord s.data 2, getWord s.data 3, getWord s.data 4, getWord s.data 5,
        getWord s.data 6, getWord s.data 7⟩ ∧
      (∀ t : Fin 80, t.val < 64 → r (t.val + 1) = forward2 t.val s.sched[t] (r t.val)) ∧
      r 64 = ⟨getWord d 0, getWord d 1, getWord d 2, getWord d 3, getWord d 4, getWord d 5, getWord d 6, getWord d 7⟩)

/-- R104: `DEC.S2` runs the sixty-four inverse rounds, from round 63 down to round 0. -/
def Obligations.DecS2RunsSixtyFourInverseRounds : Prop :=
  decode 0x00000013#32 = .ok .decS2 ∧
  ∀ s : State,
    (s.dlen ≠ 32#32 → exec .decS2 s = .next { s with err := 2#3, busy := false }) ∧
    (s.dlen = 32#32 → ¬(s.svalid = true ∧ s.svar = .shacal2) → exec .decS2 s = .next { s with err := 4#3, busy := false }) ∧
    (s.dlen = 32#32 → s.svalid = true → s.svar = .shacal2 → ∃ (d : Vector Byte 32) (r : Nat → Work2),
      exec .decS2 s = .next { s with data := d, err := 0#3, busy := false } ∧
      r 64 = ⟨getWord s.data 0, getWord s.data 1, getWord s.data 2, getWord s.data 3, getWord s.data 4, getWord s.data 5,
        getWord s.data 6, getWord s.data 7⟩ ∧
      (∀ t : Fin 80, t.val < 64 → r t.val = inverse2 t.val s.sched[t] (r (t.val + 1))) ∧
      r 0 = ⟨getWord d 0, getWord d 1, getWord d 2, getWord d 3, getWord d 4, getWord d 5, getWord d 6, getWord d 7⟩)

/-- R100: with the same resident schedule, DEC after ENC restores the block, and ENC after DEC too, for both variants. -/
def Obligations.EncryptionAndDecryptionUndoEachOther : Prop :=
  ∀ (v : Variant) (s : State), s.dlen.toNat = bs v → s.svalid = true → s.svar = v →
    (∃ t, exec (instrOf .enc v) s = .next t ∧ exec (instrOf .dec v) t = .next { s with err := 0#3, busy := false }) ∧
    (∃ t, exec (instrOf .dec v) s = .next t ∧ exec (instrOf .enc v) t = .next { s with err := 0#3, busy := false })

/-- R105, R18: a transform's output block is a function of the input block and the resident schedule alone: two states
that agree on `DATA[0..BS-1]` and on `SCHED[0..ROUNDS-1]` give the same output block, whatever else differs. -/
def Obligations.TransformDependsOnBlockAndScheduleAlone : Prop :=
  ∀ (v : Variant) (op : Op) (s s' : State), op = .enc ∨ op = .dec →
    s.dlen.toNat = bs v → s.svalid = true → s.svar = v → s'.dlen.toNat = bs v → s'.svalid = true → s'.svar = v →
    (∀ i : Fin 32, i.val < bs v → s.data[i] = s'.data[i]) →
    (∀ i : Fin 80, i.val < rounds v → s.sched[i] = s'.sched[i]) →
    ∃ t t', exec (instrOf op v) s = .next t ∧ exec (instrOf op v) s' = .next t' ∧
      ∀ i : Fin 32, i.val < bs v → t.data[i] = t'.data[i]

/-! ### Errors -/

/-- R110: a command that raises an error changes `ERR` and `BUSY` alone, but that EXPAND also clears `SVALID`; after an
EXPAND that fails, a transform of a whole block raises `NoSchedule`. -/
def Obligations.RaisedErrorChangesNothingElse : Prop :=
  ∀ (i : Instr) (s t : State), exec i s = .next t → t.err ≠ 0#3 →
    t = { s with svalid := (if i.op = .expand then false else s.svalid), err := t.err, busy := false } ∧
    (i.op = .expand → ∀ (v : Variant) (d : Vector Byte 32),
      let u := { t with data := d, dlen := BitVec.ofNat 32 (bs v) }
      exec (instrOf .enc v) u = .next { u with err := 4#3, busy := false } ∧
      exec (instrOf .dec v) u = .next { u with err := 4#3, busy := false })

/-- R109: which command can end with which code, each code of a row on some state; an illegal word written to `CTRL`
while `BUSY = 0` (out of reset) ends with code 5 alone. -/
def Obligations.EachCommandEndsWithTheCodesOfItsRow : Prop :=
  (∀ (s : State) (w : Word), s.busy = false → s.rst = false → legalWord w = false →
    (memWrite s HostReg.ctrl.addr w).err = 5#3) ∧
  ∀ (i : Instr) (code : BitVec 3),
    (∃ s t : State, exec i s = .next t ∧ t.err = code) ↔
      code.toNat ∈ (match i.op with
        | .expand => [0, 1]
        | .enc => [0, 2, 4]
        | .dec => [0, 2, 4]
        | .pad => [0, 2]
        | .unpad => [0, 2, 3])

/-! ### The register window -/

/-- R12: `BE32` packs the first byte most significant, and `unBE32` is its inverse. -/
def Obligations.PackingIsBigEndianAndInvertible : Prop :=
  (∀ b0 b1 b2 b3 : Byte,
    (be32 b0 b1 b2 b3).toNat = b0.toNat * 2 ^ 24 + b1.toNat * 2 ^ 16 + b2.toNat * 2 ^ 8 + b3.toNat ∧
    unbe32 (be32 b0 b1 b2 b3) 0 = b0 ∧ unbe32 (be32 b0 b1 b2 b3) 1 = b1 ∧ unbe32 (be32 b0 b1 b2 b3) 2 = b2 ∧
    unbe32 (be32 b0 b1 b2 b3) 3 = b3) ∧
  (∀ w : Word, be32 (unbe32 w 0) (unbe32 w 1) (unbe32 w 2) (unbe32 w 3) = w)

/-- R35: the byte offsets of the register map, and that each register has exactly one offset and each offset at most one
register (R30). -/
def Obligations.RegisterMapHasTheOffsetsOfTheTable : Prop :=
  byteOffset HostReg.ctrl.addr = 0x000 ∧ byteOffset HostReg.status.addr = 0x004 ∧
  byteOffset HostReg.keylen.addr = 0x008 ∧ byteOffset HostReg.dlen.addr = 0x00C ∧
  (∀ j : Fin 16, byteOffset (HostReg.keyw j).addr = 0x040 + 4 * j.val) ∧
  (∀ j : Fin 8, byteOffset (HostReg.dataw j).addr = 0x080 + 4 * j.val) ∧
  (∀ i : Fin 80, byteOffset (HostReg.schedw i).addr = 0x100 + 4 * i.val) ∧
  (∀ (a : WordAddr) (r : HostReg), regAt a = some r ↔ r.addr = a)

/-- R42, R36, R40: with `BUSY = 0` and out of reset, a write of `KEYLEN`, `DLEN`, a `KEYW` or a `DATAW` is read back, and
every other offset reads as before. -/
def Obligations.WrittenRegisterReadsBackAndOthersStay : Prop :=
  ∀ (s : State) (r : HostReg) (v : Word), s.busy = false → s.rst = false →
    (r = .keylen ∨ r = .dlen ∨ (∃ j, r = .keyw j) ∨ ∃ j, r = .dataw j) →
    memRead (memWrite s r.addr v) r.addr = v ∧
    ∀ a : WordAddr, a ≠ r.addr → memRead (memWrite s r.addr v) a = memRead s a

/-- R36: the packing of the buffers in the window, as the host reads and writes them. -/
def Obligations.BuffersArePackedBigEndianInTheWindow : Prop :=
  ∀ s : State, s.busy = false → s.rst = false →
    (∀ j : Fin 16, memRead s (HostReg.keyw j).addr =
      be32 s.key[4 * j.val] s.key[4 * j.val + 1] s.key[4 * j.val + 2] s.key[4 * j.val + 3]) ∧
    (∀ j : Fin 8, memRead s (HostReg.dataw j).addr =
      be32 s.data[4 * j.val] s.data[4 * j.val + 1] s.data[4 * j.val + 2] s.data[4 * j.val + 3]) ∧
    (∀ i : Fin 80, memRead s (HostReg.schedw i).addr = s.sched[i]) ∧
    (∀ (j : Fin 16) (v : Word), ∃ k : Vector Byte 64, memWrite s (HostReg.keyw j).addr v = { s with key := k } ∧
      ∀ i : Fin 64, k[i] = if i.val / 4 = j.val then unbe32 v (i.val % 4) else s.key[i]) ∧
    (∀ (j : Fin 8) (v : Word), ∃ d : Vector Byte 32, memWrite s (HostReg.dataw j).addr v = { s with data := d } ∧
      ∀ i : Fin 32, d[i] = if i.val / 4 = j.val then unbe32 v (i.val % 4) else s.data[i])

/-- R27: what a write to `CTRL` does, and that a read of it returns 0 and leaves the core as it is (out of reset). That the
read also advances the counter of free values is the model's own choice (log entry 1). -/
def Obligations.CtrlWriteStartsALegalCommand : Prop :=
  ∀ (s : State) (v : Word), s.rst = false →
    (s.busy = true → memWrite s HostReg.ctrl.addr v = s) ∧
    (s.busy = false → legalWord v = true → memWrite s HostReg.ctrl.addr v = { s with pending := v, busy := true }) ∧
    (s.busy = false → legalWord v = false → memWrite s HostReg.ctrl.addr v = { s with err := 5#3 }) ∧
    memRead s HostReg.ctrl.addr = 0#32 ∧
    ∀ k : Fin 16, ∃ h : HostAgent, h.temps[k] = 0#32 ∧
      s.hostOp (.rd k HostReg.ctrl.addr) = { s with host := h, free := s.free + 1 }

/-- R38: reserved offsets and read-only registers, with `BUSY = 0` and `BUSY = 1` alike (out of reset); with `BUSY = 0`,
all 32 bits of `KEYLEN` and `DLEN` are stored as written. -/
def Obligations.ReservedSpaceAndReadOnlyRegisters : Prop :=
  ∀ (s : State) (a : WordAddr) (v : Word), s.rst = false →
    (regAt a = none → memRead s a = 0#32 ∧ memWrite s a v = s) ∧
    memWrite s HostReg.status.addr v = s ∧ (∀ i : Fin 80, memWrite s (HostReg.schedw i).addr v = s) ∧
    memRead s HostReg.ctrl.addr = 0#32 ∧
    (s.busy = false → memWrite s HostReg.keylen.addr v = { s with keylen := v } ∧
      memWrite s HostReg.dlen.addr v = { s with dlen := v }) ∧
    ∀ n : Nat, n ∈ [1, 2, 3, 7] ∨ 10 ≤ n → (memRead s HostReg.status.addr).getLsbD n = false

/-- R28: the fields of `STATUS` as a read returns them with `BUSY = 0`, and `BUSY` and the reserved bits with `BUSY = 1`. -/
def Obligations.StatusReadsItsFields : Prop :=
  ∀ s : State, s.rst = false →
    (s.busy = false → (memRead s HostReg.status.addr).toNat =
      s.err.toNat * 2 ^ 4 + s.svalid.toNat * 2 ^ 8 + (if s.svar = .shacal2 then 1 else 0) * 2 ^ 9) ∧
    (s.busy = true → (memRead s HostReg.status.addr).toNat % 2 ^ 4 = 1 ∧
      (memRead s HostReg.status.addr).getLsbD 7 = false ∧ (memRead s HostReg.status.addr).toNat < 2 ^ 10)

/-- R39: while `BUSY = 1` no turn of the host changes any register of the core, whatever its next operation. -/
def Obligations.HostTurnWhileBusyLeavesTheCoreAlone : Prop :=
  ∀ s : State, s.busy = true → s.mover = .host →
    ∃ (h : HostAgent) (n : Nat), step s = .next { s with host := h, free := n, turns := s.turns.tail }

/-- R129, program P6: a write of `KEYLEN` issued after a command without waiting is dropped if it comes before the
engine's turn, and lands if it comes after. Which one happens is open (`LAT`, log entry 4). -/
def Obligations.WriteWithoutWaitingRacesTheCommand : Prop :=
  ∀ (s : State) (v : Word), s.busy = true → s.rst = false → legalWord s.pending = true →
    s.nextHostOp = some (.wr HostReg.keylen.addr v) →
    (∃ t, core.run 2 { s with turns := [.host, .engine] } = .next t ∧ t.keylen = s.keylen ∧ t.busy = false) ∧
    (∃ t, core.run 2 { s with turns := [.engine, .host] } = .next t ∧ t.keylen = v ∧ t.busy = false)

/-! ### Who writes what

Turns and clock edges as turns are the model's own form (log entries 4, 10). -/

/-- R16, R17: a step changes `KEY` or `KEYLEN` only by a host write with `BUSY = 0`, or by reset. -/
def Obligations.OnlyTheHostOrResetChangesTheKey : Prop :=
  ∀ s t : State, step s = .next t → t.key ≠ s.key ∨ t.keylen ≠ s.keylen →
    s.mover = .edge true ∨
    (s.mover = .host ∧ s.busy = false ∧ ∃ a v, s.nextHostOp = some (.wr a v) ∧
      (a = HostReg.keylen.addr ∨ ∃ j, a = (HostReg.keyw j).addr))

/-- R20 to R22, R80: a step changes `SCHED`, `SVALID` or `SVAR` only by running an EXPAND, or by reset. -/
def Obligations.OnlyExpandOrResetChangesTheSchedule : Prop :=
  ∀ s t : State, step s = .next t → t.sched ≠ s.sched ∨ t.svalid ≠ s.svalid ∨ t.svar ≠ s.svar →
    s.mover = .edge true ∨
    (s.mover = .engine ∧ s.busy = true ∧ (decode s.pending = .ok .expandS1 ∨ decode s.pending = .ok .expandS2))

/-- R19: a step changes `DLEN` only by a host write of `DLEN`, by a PAD or UNPAD that succeeds, or by reset. -/
def Obligations.OnlyHostPadUnpadOrResetChangesDlen : Prop :=
  ∀ s t : State, step s = .next t → t.dlen ≠ s.dlen →
    s.mover = .edge true ∨
    (s.mover = .host ∧ s.busy = false ∧ ∃ v, s.nextHostOp = some (.wr HostReg.dlen.addr v)) ∨
    (s.mover = .engine ∧ s.busy = true ∧ t.err = 0#3 ∧
      ∃ i, decode s.pending = .ok i ∧ (i.op = .pad ∨ i.op = .unpad))

/-- R23: `BUSY` is set only by the host's write of a legal command to `CTRL`, and cleared only by the command's completion
or by reset. -/
def Obligations.BusyIsSetByCtrlAndClearedByCompletion : Prop :=
  ∀ s t : State, step s = .next t →
    (s.busy = false → t.busy = true →
      s.mover = .host ∧ ∃ v, s.nextHostOp = some (.wr HostReg.ctrl.addr v) ∧ legalWord v = true ∧ t.pending = v) ∧
    (s.busy = true → t.busy = false → s.mover = .engine ∨ s.mover = .edge true)

/-! ### The host's program -/

/-- R62: the effect of each operation of a host program, on the core and on the host. The counter of free values and the
test of `CHECK` as an operation of its own are the model's (log entries 1, 18). -/
def Obligations.HostOperationsDoWhatTheSyntaxSays : Prop :=
  ∀ s : State,
    (∀ a v, ∃ c : State, c = memWrite s a v ∧ s.hostOp (.wr a v) = { c with host := { s.host with line := s.host.line + 1 } }) ∧
    (∀ k a, s.hostOp (.rd k a) = { s with
      host := { s.host with temps := s.host.temps.set k (memRead s a), line := s.host.line + 1 }, free := s.free + 1 }) ∧
    (∀ (k : Fin 16) (mask : Word) (l : Nat), s.hostOp (.bnz k mask l) = { s with host := { s.host with
      line := if s.host.temps[k] &&& mask = 0#32 then s.host.line + 1 else l } }) ∧
    (∀ code : BitVec 3, s.hostOp (.check code) =
      if (s.host.temps[14].toNat / 2 ^ 4) % 2 ^ 3 = code.toNat
      then { s with host := { s.host with line := s.host.line + 1 } }
      else { s with host := { s.host with status := .checkFailed } }) ∧
    s.hostOp .halt = { s with host := { s.host with status := .halted } }

/-- R62: the branches of an assembled program, those of `WAIT` included, stay inside the program. That a branch names a
line of the assembled program is the model's choice (log entry 7). -/
def Obligations.AssembledBranchesStayInTheProgram : Prop :=
  ∀ lines : List HostLine, wellFormedSource lines = true → wellFormedProgram (assemble lines) = true

/-- R120: with no command in progress and no host operation left, a step leaves the whole state as it is, but for the
turn taken (log entry 4). That a host past its program's last line has no operation left is the model's choice, where the
spec is silent (log entry 7). -/
def Obligations.IdleMachineKeepsItsState : Prop :=
  ∀ s : State, s.busy = false → s.nextHostOp = none → (∀ r, s.mover ≠ .edge r) →
    step s = .next { s with turns := s.turns.tail }

/-! ### Reset -/

/-- R32: the reset values the spec gives. -/
def Obligations.ResetStateHasTheValuesOfTheTable : Prop :=
  State.reset.busy = false ∧ State.reset.err = 0#3 ∧ State.reset.svalid = false ∧ State.reset.svar = .shacal1 ∧
  State.reset.keylen = 0#32 ∧ State.reset.dlen = 0#32 ∧ (∀ i : Fin 64, State.reset.key[i] = 0#8) ∧
  (∀ i : Fin 32, State.reset.data[i] = 0#8)

/-- R126, R125: a clock edge with `rst = 1` gives every register its reset value, from any state, also while a command is
in progress, and all of `SCHED` is unknown. The model's own: the fresh free values and their counter (log entries 1, 2, 3),
the turn taken (log entry 4), the level that is kept and the host that keeps its state (log entry 10). -/
def Obligations.ResetEdgeAbandonsTheCommand : Prop :=
  ∀ s : State, s.mover = .edge true →
    step s = .next { State.reset with
      sched := Vector.ofFn fun i => Config.schedAfterReset s.free i, pending := Config.pendingAfterReset s.free,
      rst := true, host := s.host, turns := s.turns.tail, free := s.free + 1 }

/-- R125: while `rst = 1` the core keeps every register whatever the host or the engine does, until the next clock edge at
which `rst` is sampled; an edge with `rst = 0` takes the core out of reset and changes nothing else. -/
def Obligations.CoreIsHeldWhileInReset : Prop :=
  ∀ s : State, s.rst = true →
    ((∀ r, s.mover ≠ .edge r) → ∃ (h : HostAgent) (n : Nat),
      step s = .next { s with host := h, free := n, turns := s.turns.tail }) ∧
    (s.mover = .edge false → step s = .next { s with rst := false, turns := s.turns.tail })

/-! ### Invariants and progress -/

/-- R32: the invariant holds right after reset. -/
def Obligations.InvariantHoldsAtReset : Prop := State.reset.Inv

/-- R21, R25, R28, R46, R125: from every state that meets the invariant, every step gives a state that meets it. -/
def Obligations.EveryStepKeepsTheInvariant : Prop :=
  ∀ s t : State, s.Inv → step s = .next t → t.Inv

/-- R107: the core has no halted state: from every state that meets the invariant, a step answers a next state. -/
def Obligations.MachineNeverStops : Prop :=
  ∀ s : State, s.Inv → ∃ t, step s = .next t

/-- R135, R134: every command terminates: from every state that meets the invariant, `BUSY` is 0 after at most one step
more than the turns laid down. -/
def Obligations.EveryCommandTerminates : Prop :=
  ∀ s : State, s.Inv → ∃ (n : Nat) (t : State), n ≤ s.turns.length + 1 ∧ core.run n s = .next t ∧ t.busy = false

/-! ### The host contract -/

/-- R121, R122: for every nonempty key and every plaintext, `encrypt` on an idle core succeeds, its ciphertext is as long
as the padded plaintext, and `decrypt` of it with the same key gives the plaintext back, for both variants. The bound on the
key's length and waiting as the engine's one step are the model's choices (log entries 16, 17). -/
def Obligations.FacadeDecryptUndoesEncrypt : Prop :=
  ∀ (v : Variant) (key plaintext : List Byte) (s : State), s.busy = false → s.rst = false →
    key ≠ [] → key.length < 2 ^ 32 →
    ∃ (t : State) (c : List Byte), facadeEncrypt v key plaintext s = .ok (t, c) ∧
      c.length = (padBytes plaintext (bs v)).length ∧
      ∃ u, facadeDecrypt v key c t = .ok (u, plaintext)

/-- R121 step 1 and R122 steps 1 and 2: an empty key is `EmptyKey`, in `encrypt` and, for a ciphertext of one or more whole
blocks, in `decrypt`; a ciphertext that is empty or not block-aligned is `InvalidLength`, decided before anything else. That
the host reports the empty key itself is the model's choice of the two ways R121 allows (log entry 17). -/
def Obligations.FacadeReportsEmptyKeyAndInvalidLength : Prop :=
  ∀ (v : Variant) (bytes key : List Byte) (s : State),
    facadeEncrypt v [] bytes s = .error (.core 1#3) ∧
    (bytes.length ≠ 0 → bytes.length % bs v = 0 → facadeDecrypt v [] bytes s = .error (.core 1#3)) ∧
    (bytes.length = 0 ∨ bytes.length % bs v ≠ 0 → facadeDecrypt v key bytes s = .error .invalidLength)
end

