-- ==== Sys2Proof/Laws/Decode.lean ====
section
/-! SUPPORT. The laws of decoding and encoding (R52 to R60). -/

namespace Sys2Proof

/-- A command is the command of its operation and variant (R58). -/
theorem instrOf_op_variant (i : Instr) : instrOf i.op i.variant = i := by cases i <;> rfl

@[simp] theorem op_instrOf (op : Op) (v : Variant) : (instrOf op v).op = op := by cases op <;> cases v <;> rfl
@[simp] theorem variant_instrOf (op : Op) (v : Variant) : (instrOf op v).variant = v := by
  cases op <;> cases v <;> rfl

theorem legalWord_of_decode {w : Word} {i : Instr} (h : decode w = .ok i) : legalWord w = true := by
  simp [legalWord, h]

/-- A legal word decodes to a command. -/
theorem decode_of_legalWord {w : Word} (h : legalWord w = true) : ∃ i, decode w = .ok i := by
  simp only [legalWord] at h
  cases hd : decode w with
  | ok i => exact ⟨i, rfl⟩
  | error e => simp [hd] at h

/-- An illegal word is rejected by name. -/
theorem decode_of_illegalWord {w : Word} (h : legalWord w = false) : ∃ e, decode w = .error e := by
  simp only [legalWord] at h
  cases hd : decode w with
  | ok i => simp [hd] at h
  | error e => exact ⟨e, rfl⟩

/-- A word with bits 31:5 all 0 is below 32. -/
theorem toNat_lt_of_reservedField {w : Word} (h : reservedField w = 0#27) : w.toNat < 32 := by
  have hn := congrArg BitVec.toNat h
  simp [reservedField, BitVec.extractLsb'_toNat, Nat.shiftRight_eq_div_pow] at hn
  have := w.isLt
  omega

end Sys2Proof
end

