-- ==== Sys2Proof/Laws/State.lean ====
section
/-! SUPPORT. What each named update of the state leaves in each field. All are `@[simp]`, so that no later proof unfolds
a record update. -/

namespace Sys2Proof.Machine

variable (s : State)

/-! ### `finish` -/

@[simp] theorem State.finish_key (code : BitVec 3) : (s.finish code).key = s.key := rfl
@[simp] theorem State.finish_keylen (code : BitVec 3) : (s.finish code).keylen = s.keylen := rfl
@[simp] theorem State.finish_data (code : BitVec 3) : (s.finish code).data = s.data := rfl
@[simp] theorem State.finish_dlen (code : BitVec 3) : (s.finish code).dlen = s.dlen := rfl
@[simp] theorem State.finish_sched (code : BitVec 3) : (s.finish code).sched = s.sched := rfl
@[simp] theorem State.finish_busy (code : BitVec 3) : (s.finish code).busy = false := rfl
@[simp] theorem State.finish_err (code : BitVec 3) : (s.finish code).err = code := rfl
@[simp] theorem State.finish_svalid (code : BitVec 3) : (s.finish code).svalid = s.svalid := rfl
@[simp] theorem State.finish_svar (code : BitVec 3) : (s.finish code).svar = s.svar := rfl
@[simp] theorem State.finish_pending (code : BitVec 3) : (s.finish code).pending = s.pending := rfl
@[simp] theorem State.finish_rst (code : BitVec 3) : (s.finish code).rst = s.rst := rfl
@[simp] theorem State.finish_host (code : BitVec 3) : (s.finish code).host = s.host := rfl
@[simp] theorem State.finish_turns (code : BitVec 3) : (s.finish code).turns = s.turns := rfl
@[simp] theorem State.finish_free (code : BitVec 3) : (s.finish code).free = s.free := rfl

/-! ### `popTurn` -/

@[simp] theorem State.popTurn_key : (s.popTurn).key = s.key := rfl
@[simp] theorem State.popTurn_keylen : (s.popTurn).keylen = s.keylen := rfl
@[simp] theorem State.popTurn_data : (s.popTurn).data = s.data := rfl
@[simp] theorem State.popTurn_dlen : (s.popTurn).dlen = s.dlen := rfl
@[simp] theorem State.popTurn_sched : (s.popTurn).sched = s.sched := rfl
@[simp] theorem State.popTurn_busy : (s.popTurn).busy = s.busy := rfl
@[simp] theorem State.popTurn_err : (s.popTurn).err = s.err := rfl
@[simp] theorem State.popTurn_svalid : (s.popTurn).svalid = s.svalid := rfl
@[simp] theorem State.popTurn_svar : (s.popTurn).svar = s.svar := rfl
@[simp] theorem State.popTurn_pending : (s.popTurn).pending = s.pending := rfl
@[simp] theorem State.popTurn_rst : (s.popTurn).rst = s.rst := rfl
@[simp] theorem State.popTurn_host : (s.popTurn).host = s.host := rfl
@[simp] theorem State.popTurn_turns : (s.popTurn).turns = s.turns.tail := rfl
@[simp] theorem State.popTurn_free : (s.popTurn).free = s.free := rfl

/-! ### `resetCore` -/

@[simp] theorem State.resetCore_key : (s.resetCore).key = Vector.replicate 64 0#8 := rfl
@[simp] theorem State.resetCore_keylen : (s.resetCore).keylen = 0#32 := rfl
@[simp] theorem State.resetCore_data : (s.resetCore).data = Vector.replicate 32 0#8 := rfl
@[simp] theorem State.resetCore_dlen : (s.resetCore).dlen = 0#32 := rfl
@[simp] theorem State.resetCore_sched :
    (s.resetCore).sched = Vector.ofFn fun i => Config.schedAfterReset s.free i := rfl
@[simp] theorem State.resetCore_busy : (s.resetCore).busy = false := rfl
@[simp] theorem State.resetCore_err : (s.resetCore).err = 0#3 := rfl
@[simp] theorem State.resetCore_svalid : (s.resetCore).svalid = false := rfl
@[simp] theorem State.resetCore_svar : (s.resetCore).svar = .shacal1 := rfl
@[simp] theorem State.resetCore_pending : (s.resetCore).pending = Config.pendingAfterReset s.free := rfl
@[simp] theorem State.resetCore_rst : (s.resetCore).rst = s.rst := rfl
@[simp] theorem State.resetCore_host : (s.resetCore).host = s.host := rfl
@[simp] theorem State.resetCore_turns : (s.resetCore).turns = s.turns := rfl
@[simp] theorem State.resetCore_free : (s.resetCore).free = s.free + 1 := rfl

/-! ### `advanceHost` -/

@[simp] theorem State.advanceHost_key : (s.advanceHost).key = s.key := rfl
@[simp] theorem State.advanceHost_keylen : (s.advanceHost).keylen = s.keylen := rfl
@[simp] theorem State.advanceHost_data : (s.advanceHost).data = s.data := rfl
@[simp] theorem State.advanceHost_dlen : (s.advanceHost).dlen = s.dlen := rfl
@[simp] theorem State.advanceHost_sched : (s.advanceHost).sched = s.sched := rfl
@[simp] theorem State.advanceHost_busy : (s.advanceHost).busy = s.busy := rfl
@[simp] theorem State.advanceHost_err : (s.advanceHost).err = s.err := rfl
@[simp] theorem State.advanceHost_svalid : (s.advanceHost).svalid = s.svalid := rfl
@[simp] theorem State.advanceHost_svar : (s.advanceHost).svar = s.svar := rfl
@[simp] theorem State.advanceHost_pending : (s.advanceHost).pending = s.pending := rfl
@[simp] theorem State.advanceHost_rst : (s.advanceHost).rst = s.rst := rfl
@[simp] theorem State.advanceHost_host : (s.advanceHost).host = { s.host with line := s.host.line + 1 } := rfl
@[simp] theorem State.advanceHost_turns : (s.advanceHost).turns = s.turns := rfl
@[simp] theorem State.advanceHost_free : (s.advanceHost).free = s.free := rfl

/-! ### `jumpHost` -/

@[simp] theorem State.jumpHost_key (n : Nat) : (s.jumpHost n).key = s.key := rfl
@[simp] theorem State.jumpHost_keylen (n : Nat) : (s.jumpHost n).keylen = s.keylen := rfl
@[simp] theorem State.jumpHost_data (n : Nat) : (s.jumpHost n).data = s.data := rfl
@[simp] theorem State.jumpHost_dlen (n : Nat) : (s.jumpHost n).dlen = s.dlen := rfl
@[simp] theorem State.jumpHost_sched (n : Nat) : (s.jumpHost n).sched = s.sched := rfl
@[simp] theorem State.jumpHost_busy (n : Nat) : (s.jumpHost n).busy = s.busy := rfl
@[simp] theorem State.jumpHost_err (n : Nat) : (s.jumpHost n).err = s.err := rfl
@[simp] theorem State.jumpHost_svalid (n : Nat) : (s.jumpHost n).svalid = s.svalid := rfl
@[simp] theorem State.jumpHost_svar (n : Nat) : (s.jumpHost n).svar = s.svar := rfl
@[simp] theorem State.jumpHost_pending (n : Nat) : (s.jumpHost n).pending = s.pending := rfl
@[simp] theorem State.jumpHost_rst (n : Nat) : (s.jumpHost n).rst = s.rst := rfl
@[simp] theorem State.jumpHost_host (n : Nat) : (s.jumpHost n).host = { s.host with line := n } := rfl
@[simp] theorem State.jumpHost_turns (n : Nat) : (s.jumpHost n).turns = s.turns := rfl
@[simp] theorem State.jumpHost_free (n : Nat) : (s.jumpHost n).free = s.free := rfl

/-! ### `stopHost` -/

@[simp] theorem State.stopHost_key (verdict : HostStatus) : (s.stopHost verdict).key = s.key := rfl
@[simp] theorem State.stopHost_keylen (verdict : HostStatus) : (s.stopHost verdict).keylen = s.keylen := rfl
@[simp] theorem State.stopHost_data (verdict : HostStatus) : (s.stopHost verdict).data = s.data := rfl
@[simp] theorem State.stopHost_dlen (verdict : HostStatus) : (s.stopHost verdict).dlen = s.dlen := rfl
@[simp] theorem State.stopHost_sched (verdict : HostStatus) : (s.stopHost verdict).sched = s.sched := rfl
@[simp] theorem State.stopHost_busy (verdict : HostStatus) : (s.stopHost verdict).busy = s.busy := rfl
@[simp] theorem State.stopHost_err (verdict : HostStatus) : (s.stopHost verdict).err = s.err := rfl
@[simp] theorem State.stopHost_svalid (verdict : HostStatus) : (s.stopHost verdict).svalid = s.svalid := rfl
@[simp] theorem State.stopHost_svar (verdict : HostStatus) : (s.stopHost verdict).svar = s.svar := rfl
@[simp] theorem State.stopHost_pending (verdict : HostStatus) : (s.stopHost verdict).pending = s.pending := rfl
@[simp] theorem State.stopHost_rst (verdict : HostStatus) : (s.stopHost verdict).rst = s.rst := rfl
@[simp] theorem State.stopHost_host (verdict : HostStatus) :
    (s.stopHost verdict).host = { s.host with status := verdict } := rfl
@[simp] theorem State.stopHost_turns (verdict : HostStatus) : (s.stopHost verdict).turns = s.turns := rfl
@[simp] theorem State.stopHost_free (verdict : HostStatus) : (s.stopHost verdict).free = s.free := rfl

/-! ### `setTemp` -/

@[simp] theorem State.setTemp_key (k : Fin 16) (w : Word) : (s.setTemp k w).key = s.key := rfl
@[simp] theorem State.setTemp_keylen (k : Fin 16) (w : Word) : (s.setTemp k w).keylen = s.keylen := rfl
@[simp] theorem State.setTemp_data (k : Fin 16) (w : Word) : (s.setTemp k w).data = s.data := rfl
@[simp] theorem State.setTemp_dlen (k : Fin 16) (w : Word) : (s.setTemp k w).dlen = s.dlen := rfl
@[simp] theorem State.setTemp_sched (k : Fin 16) (w : Word) : (s.setTemp k w).sched = s.sched := rfl
@[simp] theorem State.setTemp_busy (k : Fin 16) (w : Word) : (s.setTemp k w).busy = s.busy := rfl
@[simp] theorem State.setTemp_err (k : Fin 16) (w : Word) : (s.setTemp k w).err = s.err := rfl
@[simp] theorem State.setTemp_svalid (k : Fin 16) (w : Word) : (s.setTemp k w).svalid = s.svalid := rfl
@[simp] theorem State.setTemp_svar (k : Fin 16) (w : Word) : (s.setTemp k w).svar = s.svar := rfl
@[simp] theorem State.setTemp_pending (k : Fin 16) (w : Word) : (s.setTemp k w).pending = s.pending := rfl
@[simp] theorem State.setTemp_rst (k : Fin 16) (w : Word) : (s.setTemp k w).rst = s.rst := rfl
@[simp] theorem State.setTemp_host (k : Fin 16) (w : Word) :
    (s.setTemp k w).host = { s.host with temps := s.host.temps.set k w } := rfl
@[simp] theorem State.setTemp_turns (k : Fin 16) (w : Word) : (s.setTemp k w).turns = s.turns := rfl
@[simp] theorem State.setTemp_free (k : Fin 16) (w : Word) : (s.setTemp k w).free = s.free := rfl

/-! ### `withProgram` -/

@[simp] theorem State.withProgram_key (prog : List HostOp) : (s.withProgram prog).key = s.key := rfl
@[simp] theorem State.withProgram_keylen (prog : List HostOp) : (s.withProgram prog).keylen = s.keylen := rfl
@[simp] theorem State.withProgram_data (prog : List HostOp) : (s.withProgram prog).data = s.data := rfl
@[simp] theorem State.withProgram_dlen (prog : List HostOp) : (s.withProgram prog).dlen = s.dlen := rfl
@[simp] theorem State.withProgram_sched (prog : List HostOp) : (s.withProgram prog).sched = s.sched := rfl
@[simp] theorem State.withProgram_busy (prog : List HostOp) : (s.withProgram prog).busy = s.busy := rfl
@[simp] theorem State.withProgram_err (prog : List HostOp) : (s.withProgram prog).err = s.err := rfl
@[simp] theorem State.withProgram_svalid (prog : List HostOp) : (s.withProgram prog).svalid = s.svalid := rfl
@[simp] theorem State.withProgram_svar (prog : List HostOp) : (s.withProgram prog).svar = s.svar := rfl
@[simp] theorem State.withProgram_pending (prog : List HostOp) : (s.withProgram prog).pending = s.pending := rfl
@[simp] theorem State.withProgram_rst (prog : List HostOp) : (s.withProgram prog).rst = s.rst := rfl
@[simp] theorem State.withProgram_host (prog : List HostOp) :
    (s.withProgram prog).host = { HostAgent.initial with prog := prog } := rfl
@[simp] theorem State.withProgram_turns (prog : List HostOp) : (s.withProgram prog).turns = s.turns := rfl
@[simp] theorem State.withProgram_free (prog : List HostOp) : (s.withProgram prog).free = s.free := rfl

/-! ### `withFetchWord` -/

@[simp] theorem State.withFetchWord_key (nbits w : Nat) : (s.withFetchWord nbits w).key = s.key := rfl
@[simp] theorem State.withFetchWord_keylen (nbits w : Nat) : (s.withFetchWord nbits w).keylen = s.keylen := rfl
@[simp] theorem State.withFetchWord_data (nbits w : Nat) : (s.withFetchWord nbits w).data = s.data := rfl
@[simp] theorem State.withFetchWord_dlen (nbits w : Nat) : (s.withFetchWord nbits w).dlen = s.dlen := rfl
@[simp] theorem State.withFetchWord_sched (nbits w : Nat) : (s.withFetchWord nbits w).sched = s.sched := rfl
@[simp] theorem State.withFetchWord_busy (nbits w : Nat) : (s.withFetchWord nbits w).busy = true := rfl
@[simp] theorem State.withFetchWord_err (nbits w : Nat) : (s.withFetchWord nbits w).err = s.err := rfl
@[simp] theorem State.withFetchWord_svalid (nbits w : Nat) : (s.withFetchWord nbits w).svalid = s.svalid := rfl
@[simp] theorem State.withFetchWord_svar (nbits w : Nat) : (s.withFetchWord nbits w).svar = s.svar := rfl
@[simp] theorem State.withFetchWord_pending (nbits w : Nat) :
    (s.withFetchWord nbits w).pending = tableWord nbits w := rfl
@[simp] theorem State.withFetchWord_rst (nbits w : Nat) : (s.withFetchWord nbits w).rst = false := rfl
@[simp] theorem State.withFetchWord_host (nbits w : Nat) : (s.withFetchWord nbits w).host = s.host := rfl
@[simp] theorem State.withFetchWord_turns (nbits w : Nat) :
    (s.withFetchWord nbits w).turns = .engine :: s.turns := rfl
@[simp] theorem State.withFetchWord_free (nbits w : Nat) : (s.withFetchWord nbits w).free = s.free := rfl

/-! ### `clockEdge`, and the choice of who moves -/

@[simp] theorem State.clockEdge_true : s.clockEdge true = { s.resetCore with rst := true } := rfl
@[simp] theorem State.clockEdge_false : s.clockEdge false = { s with rst := false } := rfl
@[simp] theorem State.nextHostOp_popTurn : s.popTurn.nextHostOp = s.nextHostOp := rfl
@[simp] theorem State.readStatus_popTurn : s.popTurn.readStatus = s.readStatus := rfl
@[simp] theorem State.mover_withFetchWord (nbits w : Nat) : (s.withFetchWord nbits w).mover = .engine := rfl

/-- With turns laid down, the first of them moves. -/
theorem State.mover_of_turns {s : State} {t : Turn} {ts : List Turn} (h : s.turns = t :: ts) : s.mover = t := by
  simp [State.mover, h]

/-- With no turn laid down, the engine moves exactly when it is enabled (R134). -/
theorem State.mover_of_noTurns {s : State} (h : s.turns = []) :
    s.mover = if s.busy && !s.rst then .engine else .host := by
  simp [State.mover, h]

/-- Where the host's program stands at an operation, that is the next one. -/
theorem State.nextHostOp_of_running {s : State} (h : s.host.status = .running) :
    s.nextHostOp = s.host.prog[s.host.line]? := by
  simp [State.nextHostOp, h]

/-- A host whose program has ended has no next operation. -/
theorem State.nextHostOp_of_stopped {s : State} (h : s.host.status ≠ .running) : s.nextHostOp = none := by
  simp only [State.nextHostOp]
  cases hs : s.host.status with
  | running => exact absurd hs h
  | halted => rfl
  | checkFailed => rfl

end Sys2Proof.Machine
end

