-- ==== Sys2Proof/Laws/Commands.lean ====
section
/-! SUPPORT. What each shared meaning answers, by cases of its guards, and everything a command can do. Later proofs cite
these and unfold no meaning. -/

namespace Sys2Proof.Machine

/-! ### The guards -/

theorem lastByte_shacal1 (data : Vector Byte 32) : lastByte data .shacal1 = data[19] := rfl
theorem lastByte_shacal2 (data : Vector Byte 32) : lastByte data .shacal2 = data[31] := rfl

/-- The last byte of the block, once replaced, is the new one. -/
theorem lastByte_set (data : Vector Byte 32) (v : Variant) (n : Byte) :
    lastByte (data.set (bs v - 1) n (by cases v <;> decide)) v = n := by
  simp [lastByte]

theorem bs_pos (v : Variant) : 0 < bs v := by cases v <;> decide
theorem bs_le (v : Variant) : bs v ≤ 32 := by cases v <;> decide
theorem rounds_ge (v : Variant) : 16 ≤ rounds v := by cases v <;> decide
theorem rounds_le (v : Variant) : rounds v ≤ 80 := by cases v <;> decide

theorem ofNat_bs_toNat (v : Variant) : (BitVec.ofNat 32 (bs v)).toNat = bs v := by cases v <;> rfl

theorem hasBlock_iff (s : State) (v : Variant) : s.hasBlock v = true ↔ s.dlen = BitVec.ofNat 32 (bs v) := by
  simp [State.hasBlock]

theorem hasBlock_iff_toNat (s : State) (v : Variant) : s.hasBlock v = true ↔ s.dlen.toNat = bs v := by
  rw [hasBlock_iff]
  constructor
  · intro h
    rw [h, ofNat_bs_toNat]
  · intro h
    rw [← h]
    simp

theorem hasPartialBlock_iff (s : State) (v : Variant) : s.hasPartialBlock v = true ↔ s.dlen.toNat < bs v := by
  simp [State.hasPartialBlock]

theorem hasSchedule_iff (s : State) (v : Variant) : s.hasSchedule v = true ↔ s.svalid = true ∧ s.svar = v := by
  simp [State.hasSchedule]

/-! ### PAD and UNPAD (R65 to R68) -/

section
variable {s : State} {v : Variant}

theorem runPad_of_partial (h : s.hasPartialBlock v = true) :
    runPad v s = .next { s with
      data := padFill s.data s.dlen.toNat (bs v), dlen := BitVec.ofNat 32 (bs v), err := 0#3, busy := false } := by
  rw [runPad, if_pos h]; rfl

theorem runPad_of_full (h : ¬s.hasPartialBlock v = true) :
    runPad v s = .next { s with err := 2#3, busy := false } := by
  rw [runPad, if_neg h]; rfl

theorem runUnpad_of_valid (hb : s.hasBlock v = true) (hp : PaddingValid s.data v) :
    runUnpad v s = .next { s with
      dlen := BitVec.ofNat 32 (bs v - (lastByte s.data v).toNat), err := 0#3, busy := false } := by
  rw [runUnpad, if_pos hb, if_pos hp]; rfl

theorem runUnpad_of_invalid (hb : s.hasBlock v = true) (hp : ¬PaddingValid s.data v) :
    runUnpad v s = .next { s with err := 3#3, busy := false } := by
  rw [runUnpad, if_pos hb, if_neg hp]; rfl

theorem runUnpad_of_badLength (hb : ¬s.hasBlock v = true) :
    runUnpad v s = .next { s with err := 2#3, busy := false } := by
  rw [runUnpad, if_neg hb]; rfl

/-! ### EXPAND (R78, R79) -/

theorem runExpand_of_emptyKey (h : s.keylen = 0#32) :
    runExpand v s = .next { s with svalid := false, err := 1#3, busy := false } := by
  simp only [runExpand, h, if_true]; rfl

theorem runExpand_of_key (h : s.keylen ≠ 0#32) :
    runExpand v s = .next { s with
      sched := storeSchedule s.sched (expandedKey v s.key s.keylen), svar := v, svalid := true, err := 0#3,
      busy := false } := by
  simp only [runExpand, h, if_false]; rfl

/-! ### ENC and DEC (R101 to R104) -/

variable {f : Vector Word 80 → Vector Byte 32 → Vector Byte 32}

theorem runTransform_of_ready (hb : s.hasBlock v = true) (hs : s.hasSchedule v = true) :
    runTransform v f s = .next { s with data := f s.sched s.data, err := 0#3, busy := false } := by
  rw [runTransform, if_pos hb, if_pos hs]; rfl

theorem runTransform_of_noSchedule (hb : s.hasBlock v = true) (hs : ¬s.hasSchedule v = true) :
    runTransform v f s = .next { s with err := 4#3, busy := false } := by
  rw [runTransform, if_pos hb, if_neg hs]; rfl

theorem runTransform_of_badLength (hb : ¬s.hasBlock v = true) :
    runTransform v f s = .next { s with err := 2#3, busy := false } := by
  rw [runTransform, if_neg hb]; rfl

end

/-! ### A command by its operation and variant -/

/-- The cipher of a transform command; the other commands transform nothing. -/
def cipherOf : Op → Variant → Vector Word 80 → Vector Byte 32 → Vector Byte 32
  | .enc, .shacal1 => encrypt1
  | .enc, .shacal2 => encrypt2
  | .dec, .shacal1 => decrypt1
  | .dec, .shacal2 => decrypt2
  | .expand, _ => fun _ d => d
  | .pad, _ => fun _ d => d
  | .unpad, _ => fun _ d => d

theorem exec_expand (v : Variant) (s : State) : exec (instrOf .expand v) s = runExpand v s := by cases v <;> rfl

theorem exec_enc (v : Variant) (s : State) : exec (instrOf .enc v) s = runTransform v (cipherOf .enc v) s := by
  cases v <;> rfl

theorem exec_dec (v : Variant) (s : State) : exec (instrOf .dec v) s = runTransform v (cipherOf .dec v) s := by
  cases v <;> rfl

theorem exec_pad (v : Variant) (s : State) : exec (instrOf .pad v) s = runPad v s := by cases v <;> rfl

theorem exec_unpad (v : Variant) (s : State) : exec (instrOf .unpad v) s = runUnpad v s := by cases v <;> rfl

/-! ### Everything a command can do -/

/-- Everything a command can do: write the block and `DLEN`, write the schedule, or end with an error. -/
inductive CommandEffect (i : Instr) (s : State) : State → Prop
  | writesData (d : Vector Byte 32) (n : Word) : i.op ≠ .expand → (n ≠ s.dlen → i.op = .pad ∨ i.op = .unpad) →
      CommandEffect i s { s with data := d, dlen := n, err := 0#3, busy := false }
  | expands : i.op = .expand → s.keylen ≠ 0#32 → CommandEffect i s { s with
      sched := storeSchedule s.sched (expandedKey i.variant s.key s.keylen), svar := i.variant, svalid := true,
      err := 0#3, busy := false }
  | emptyKey : i.op = .expand → CommandEffect i s { s with svalid := false, err := 1#3, busy := false }
  | raises (code : BitVec 3) : i.op ≠ .expand →
      code = 2#3 ∨ (code = 3#3 ∧ i.op = .unpad) ∨ (code = 4#3 ∧ (i.op = .enc ∨ i.op = .dec)) →
      CommandEffect i s { s with err := code, busy := false }

/-- A command always gives a next state, and does nothing but what `CommandEffect` says. -/
theorem exec_effect (i : Instr) (s : State) : ∃ t, exec i s = .next t ∧ CommandEffect i s t := by
  generalize hop : i.op = op
  generalize hv : i.variant = v
  obtain rfl : i = instrOf op v := by rw [← hop, ← hv, instrOf_op_variant]
  have htransform : ∀ f, op = .enc ∨ op = .dec →
      ∃ t, runTransform v f s = .next t ∧ CommandEffect (instrOf op v) s t := by
    intro f ho
    have hne : (instrOf op v).op ≠ .expand := by rcases ho with rfl | rfl <;> simp
    by_cases hb : s.hasBlock v = true
    · by_cases hs : s.hasSchedule v = true
      · exact ⟨_, runTransform_of_ready hb hs, .writesData _ s.dlen hne (absurd rfl)⟩
      · exact ⟨_, runTransform_of_noSchedule hb hs, .raises _ hne (.inr (.inr ⟨rfl, by simpa using ho⟩))⟩
    · exact ⟨_, runTransform_of_badLength hb, .raises _ hne (.inl rfl)⟩
  cases op with
  | expand =>
    rw [exec_expand]
    by_cases h : s.keylen = 0#32
    · exact ⟨_, runExpand_of_emptyKey h, .emptyKey (op_instrOf _ _)⟩
    · refine ⟨_, runExpand_of_key h, ?_⟩
      have := CommandEffect.expands (i := instrOf .expand v) (s := s) (op_instrOf _ _) h
      rwa [variant_instrOf] at this
  | enc => rw [exec_enc]; exact htransform _ (.inl rfl)
  | dec => rw [exec_dec]; exact htransform _ (.inr rfl)
  | pad =>
    rw [exec_pad]
    by_cases h : s.hasPartialBlock v = true
    · exact ⟨_, runPad_of_partial h, .writesData _ _ (by simp) fun _ => .inl (op_instrOf _ _)⟩
    · exact ⟨_, runPad_of_full h, .raises _ (by simp) (.inl rfl)⟩
  | unpad =>
    rw [exec_unpad]
    by_cases h : s.hasBlock v = true
    · by_cases hp : PaddingValid s.data v
      · exact ⟨_, runUnpad_of_valid h hp, .writesData s.data _ (by simp) fun _ => .inr (op_instrOf _ _)⟩
      · exact ⟨_, runUnpad_of_invalid h hp, .raises _ (by simp) (.inr (.inl ⟨rfl, op_instrOf _ _⟩))⟩
    · exact ⟨_, runUnpad_of_badLength h, .raises _ (by simp) (.inl rfl)⟩

theorem effect_of_exec {i : Instr} {s t : State} (h : exec i s = .next t) : CommandEffect i s t := by
  obtain ⟨u, hu, he⟩ := exec_effect i s
  rw [hu] at h
  cases h
  exact he

section
variable {i : Instr} {s t : State} (h : CommandEffect i s t)
include h

theorem CommandEffect.busy_eq : t.busy = false := by cases h <;> rfl
theorem CommandEffect.key_eq : t.key = s.key := by cases h <;> rfl
theorem CommandEffect.keylen_eq : t.keylen = s.keylen := by cases h <;> rfl
theorem CommandEffect.pending_eq : t.pending = s.pending := by cases h <;> rfl
theorem CommandEffect.rst_eq : t.rst = s.rst := by cases h <;> rfl
theorem CommandEffect.host_eq : t.host = s.host := by cases h <;> rfl
theorem CommandEffect.turns_eq : t.turns = s.turns := by cases h <;> rfl
theorem CommandEffect.free_eq : t.free = s.free := by cases h <;> rfl

end

end Sys2Proof.Machine
end

