-- ==== Sys2Proof/Laws/Ops.lean ====
section
/-! SUPPORT. The laws of byte packing (R12), of the word accesses to the byte buffers (R36, R85), of rotation (R11) and of
the schedule's words (R20). -/

namespace Sys2Proof.Machine

/-! ### Byte packing (R12) -/

/-- `BE32` weighs the first byte most. -/
theorem be32_toNat (b0 b1 b2 b3 : Byte) :
    (be32 b0 b1 b2 b3).toNat = b0.toNat * 2 ^ 24 + b1.toNat * 2 ^ 16 + b2.toNat * 2 ^ 8 + b3.toNat := by
  have h1 := b1.isLt; have h2 := b2.isLt; have h3 := b3.isLt
  simp only [be32, BitVec.toNat_append]
  rw [← Nat.shiftLeft_add_eq_or_of_lt h3, ← Nat.shiftLeft_add_eq_or_of_lt h2, ← Nat.shiftLeft_add_eq_or_of_lt h1]
  simp only [Nat.shiftLeft_eq]
  ring

theorem unbe32_toNat (w : Word) (k : Nat) : (unbe32 w k).toNat = w.toNat / 2 ^ (24 - 8 * k) % 2 ^ 8 := by
  simp [unbe32, BitVec.extractLsb'_toNat, Nat.shiftRight_eq_div_pow]

/-- `unBE32` undoes `BE32`, byte by byte. -/
theorem unbe32_be32 (b0 b1 b2 b3 : Byte) :
    unbe32 (be32 b0 b1 b2 b3) 0 = b0 ∧ unbe32 (be32 b0 b1 b2 b3) 1 = b1 ∧ unbe32 (be32 b0 b1 b2 b3) 2 = b2 ∧
      unbe32 (be32 b0 b1 b2 b3) 3 = b3 := by
  have h0 := b0.isLt; have h1 := b1.isLt; have h2 := b2.isLt; have h3 := b3.isLt
  refine ⟨?_, ?_, ?_, ?_⟩ <;> apply BitVec.eq_of_toNat_eq <;> rw [unbe32_toNat, be32_toNat] <;> omega

@[simp] theorem unbe32_be32_0 (b0 b1 b2 b3 : Byte) : unbe32 (be32 b0 b1 b2 b3) 0 = b0 := (unbe32_be32 ..).1
@[simp] theorem unbe32_be32_1 (b0 b1 b2 b3 : Byte) : unbe32 (be32 b0 b1 b2 b3) 1 = b1 := (unbe32_be32 ..).2.1
@[simp] theorem unbe32_be32_2 (b0 b1 b2 b3 : Byte) : unbe32 (be32 b0 b1 b2 b3) 2 = b2 := (unbe32_be32 ..).2.2.1
@[simp] theorem unbe32_be32_3 (b0 b1 b2 b3 : Byte) : unbe32 (be32 b0 b1 b2 b3) 3 = b3 := (unbe32_be32 ..).2.2.2

/-- `BE32` undoes `unBE32`. -/
theorem be32_unbe32 (w : Word) : be32 (unbe32 w 0) (unbe32 w 1) (unbe32 w 2) (unbe32 w 3) = w := by
  have h := w.isLt
  apply BitVec.eq_of_toNat_eq
  simp only [be32_toNat, unbe32_toNat]
  omega

theorem be32_inj {a b c d a' b' c' d' : Byte} (h : be32 a b c d = be32 a' b' c' d') :
    a = a' ∧ b = b' ∧ c = c' ∧ d = d' := by
  have e0 := congrArg (unbe32 · 0) h
  have e1 := congrArg (unbe32 · 1) h
  have e2 := congrArg (unbe32 · 2) h
  have e3 := congrArg (unbe32 · 3) h
  simp only [unbe32_be32_0, unbe32_be32_1, unbe32_be32_2, unbe32_be32_3] at e0 e1 e2 e3
  exact ⟨e0, e1, e2, e3⟩

/-! ### Words of a byte buffer (R36, R85) -/

section
variable {n : Nat}

/-- What a word write leaves at every byte. -/
theorem putWord_getElem (buf : Vector Byte n) (j : Nat) (w : Word) (h : 4 * j + 3 < n) (i : Nat) (hi : i < n) :
    (putWord buf j w h)[i] = if i / 4 = j then unbe32 w (i % 4) else buf[i] := by
  simp only [putWord, Vector.getElem_set]
  split_ifs <;> first | (exfalso; omega) | skip
  all_goals first | rfl | (congr 1; omega)

/-- A word read after a write of the same word gives the value written. -/
theorem getWord_putWord_same (buf : Vector Byte n) (j : Nat) (w : Word) (h : 4 * j + 3 < n) :
    getWord (putWord buf j w h) j h = w := by
  have d0 : 4 * j / 4 = j := by omega
  have d1 : (4 * j + 1) / 4 = j := by omega
  have d2 : (4 * j + 2) / 4 = j := by omega
  have d3 : (4 * j + 3) / 4 = j := by omega
  have m0 : 4 * j % 4 = 0 := by omega
  have m1 : (4 * j + 1) % 4 = 1 := by omega
  have m2 : (4 * j + 2) % 4 = 2 := by omega
  have m3 : (4 * j + 3) % 4 = 3 := by omega
  simp only [getWord, putWord_getElem, d0, d1, d2, d3, m0, m1, m2, m3, if_true, be32_unbe32]

/-- A word write leaves every other word alone. -/
theorem getWord_putWord_ne (buf : Vector Byte n) (j k : Nat) (w : Word) (h : 4 * j + 3 < n) (hk : 4 * k + 3 < n)
    (hne : k ≠ j) : getWord (putWord buf j w h) k hk = getWord buf k hk := by
  have d0 : 4 * k / 4 ≠ j := by omega
  have d1 : (4 * k + 1) / 4 ≠ j := by omega
  have d2 : (4 * k + 2) / 4 ≠ j := by omega
  have d3 : (4 * k + 3) / 4 ≠ j := by omega
  simp only [getWord, putWord_getElem, d0, d1, d2, d3, if_false]

/-- Buffers that agree on a word agree on its four bytes. -/
theorem getElem_of_getWord_eq {x y : Vector Byte n} {j : Nat} {h : 4 * j + 3 < n}
    (e : getWord x j h = getWord y j h) {i : Nat} (hi : i < n) (hj : i / 4 = j) : x[i] = y[i] := by
  obtain ⟨e0, e1, e2, e3⟩ := be32_inj e
  have : i = 4 * j ∨ i = 4 * j + 1 ∨ i = 4 * j + 2 ∨ i = 4 * j + 3 := by omega
  rcases this with rfl | rfl | rfl | rfl <;> assumption

end

/-! ### Rotation (R11) -/

theorem rotl_eq_rotateLeft (x : Word) (n : Nat) (h : n < 32) : rotl x n = x.rotateLeft n := by
  simp [rotl, BitVec.rotateLeft, BitVec.rotateLeftAux, Nat.mod_eq_of_lt h]

theorem rotr_eq_rotateRight (x : Word) (n : Nat) (h0 : 0 < n) (h : n < 32) : rotr x n = x.rotateRight n := by
  have : 32 - (32 - n) = n := by omega
  simp [rotr, rotl, BitVec.rotateRight, BitVec.rotateRightAux, Nat.mod_eq_of_lt h, this, BitVec.or_comm]

/-- The rotation of a SHACAL-1 round is undone by that of the inverse round (R88, R89). -/
theorem rotr_rotl_30 (x : Word) : rotr (rotl x 30) 30 = x := by
  apply BitVec.eq_of_getLsbD_eq
  intro i hi
  simp only [rotr, rotl, BitVec.getLsbD_or, BitVec.getLsbD_shiftLeft, BitVec.getLsbD_ushiftRight]
  rcases Nat.lt_or_ge i 2 with h | h
  · have : i = 0 ∨ i = 1 := by omega
    rcases this with rfl | rfl <;> simp
  · have hz : BitVec.getLsbD x (2 + (30 + i)) = false := BitVec.getLsbD_of_ge _ _ (by omega)
    simp [hz, hi, show i - 2 < 30 by omega, show 2 + (i - 2) = i by omega, show i - 2 < 32 by omega,
      show ¬ 30 + i < 32 by omega]
    omega

theorem rotl_rotr_30 (x : Word) : rotl (rotr x 30) 30 = x := by
  apply BitVec.eq_of_getLsbD_eq
  intro i hi
  simp only [rotr, rotl, BitVec.getLsbD_or, BitVec.getLsbD_shiftLeft, BitVec.getLsbD_ushiftRight]
  rcases Nat.lt_or_ge i 30 with h | h
  · have hz : BitVec.getLsbD x (30 + (2 + i)) = false := BitVec.getLsbD_of_ge _ _ (by omega)
    simp [hz, h, hi, show 2 + i - 2 = i by omega, show 2 + i < 32 by omega]
    omega
  · have : i = 30 ∨ i = 31 := by omega
    rcases this with rfl | rfl <;> simp

/-! ### The schedule (R20) -/

theorem schedWord_eq (sched : Vector Word 80) (t : Nat) (h : t < 80) : schedWord sched t = sched[t] := by
  simp [schedWord, h]

end Sys2Proof.Machine
end

