-- ==== Sys2Proof/Laws/Schedule.lean ====
section
/-! SUPPORT. The laws of the key schedule expanders: every expanded word is made from the words before it (R75, R77), and
how an expanded schedule lies in `SCHED` (R78, R79). -/

namespace Sys2Proof.Machine

/-! ### The words an expansion makes -/

section
variable (key : Vector Byte 64) (keylen : Word) (next : List Word → Nat → Word)

theorem expandWords_length (n : Nat) : (expandWords key keylen next n).length = n := by
  induction n with
  | zero => rfl
  | succ n ih => simp [expandWords, ih]

/-- Word `i` is the same in every longer expansion, and is made from the words before it. -/
theorem expandWords_getD {n i : Nat} (h : i < n) (x : Word) : (expandWords key keylen next n).getD i x =
    if h : i < 16 then keyWord key keylen i h else next (expandWords key keylen next i) i := by
  induction n with
  | zero => omega
  | succ n ih =>
    simp only [expandWords]
    rcases Nat.lt_or_ge i n with hi | hi
    · rw [List.getD_append _ _ _ _ (by simpa [expandWords_length] using hi), ih hi]
    · obtain rfl : i = n := by omega
      rw [List.getD_append_right _ _ _ _ (by simp [expandWords_length]), expandWords_length]
      simp

theorem wordAt_expandWords {n m i : Nat} (hn : i < n) (hm : i < m) :
    wordAt (expandWords key keylen next n) i = wordAt (expandWords key keylen next m) i := by
  simp only [wordAt, expandWords_getD key keylen next hn, expandWords_getD key keylen next hm]

end

/-- An expansion depends on the key through its sixteen key words alone. -/
theorem expandWords_congr {key key' : Vector Byte 64} {l l' : Word} (next : List Word → Nat → Word)
    (h : ∀ j (hj : j < 16), keyWord key l j hj = keyWord key' l' j hj) (n : Nat) :
    expandWords key l next n = expandWords key' l' next n := by
  induction n with
  | zero => rfl
  | succ n ih => simp only [expandWords, ih, h]

theorem expandedKey_length (v : Variant) (key : Vector Byte 64) (keylen : Word) :
    (expandedKey v key keylen).length = rounds v :=
  expandWords_length ..

/-- The first sixteen words of a schedule are the key words (R75, R77). -/
theorem expandedKey_lt {v : Variant} {key : Vector Byte 64} {keylen : Word} {i : Nat} (h : i < 16) :
    wordAt (expandedKey v key keylen) i = keyWord key keylen i h := by
  rw [wordAt, expandedKey, expandWords_getD _ _ _ (Nat.lt_of_lt_of_le h (rounds_ge v)), dif_pos h]

/-- Every later word follows the recurrence of R75. -/
theorem expandedKey_shacal1 {key : Vector Byte 64} {keylen : Word} {i : Nat} (h : 16 ≤ i) (hi : i < 80) :
    wordAt (expandedKey .shacal1 key keylen) i = recurrence1 (expandedKey .shacal1 key keylen) i := by
  conv_lhs => simp only [wordAt, expandedKey, rounds]; rw [expandWords_getD _ _ _ hi, dif_neg (by omega)]
  simp only [recurrence, recurrence1, expandedKey, rounds]
  rw [wordAt_expandWords _ _ _ (n := i) (m := 80) (i := i - 3) (by omega) (by omega),
    wordAt_expandWords _ _ _ (n := i) (m := 80) (i := i - 8) (by omega) (by omega),
    wordAt_expandWords _ _ _ (n := i) (m := 80) (i := i - 14) (by omega) (by omega),
    wordAt_expandWords _ _ _ (n := i) (m := 80) (i := i - 16) (by omega) (by omega)]

/-- Every later word follows the recurrence of R77. -/
theorem expandedKey_shacal2 {key : Vector Byte 64} {keylen : Word} {i : Nat} (h : 16 ≤ i) (hi : i < 64) :
    wordAt (expandedKey .shacal2 key keylen) i = recurrence2 (expandedKey .shacal2 key keylen) i := by
  conv_lhs => simp only [wordAt, expandedKey, rounds]; rw [expandWords_getD _ _ _ hi, dif_neg (by omega)]
  simp only [recurrence, recurrence2, expandedKey, rounds]
  rw [wordAt_expandWords _ _ _ (n := i) (m := 64) (i := i - 2) (by omega) (by omega),
    wordAt_expandWords _ _ _ (n := i) (m := 64) (i := i - 7) (by omega) (by omega),
    wordAt_expandWords _ _ _ (n := i) (m := 64) (i := i - 15) (by omega) (by omega),
    wordAt_expandWords _ _ _ (n := i) (m := 64) (i := i - 16) (by omega) (by omega)]

/-! ### The words in `SCHED` (R78, R79) -/

theorem storeSchedule_getElem (sched : Vector Word 80) (W : List Word) (i : Nat) (h : i < 80) :
    (storeSchedule sched W)[i] = W.getD i sched[i] := by
  simp [storeSchedule]

theorem storeSchedule_getElem_lt (sched : Vector Word 80) (W : List Word) (i : Nat) (h : i < 80) (hi : i < W.length) :
    (storeSchedule sched W)[i] = wordAt W i := by
  simp [storeSchedule, wordAt, List.getD_eq_getElem?_getD, hi]

/-- Words past the end of the schedule stay. -/
theorem storeSchedule_getElem_ge (sched : Vector Word 80) (W : List Word) (i : Nat) (h : i < 80) (hi : W.length ≤ i) :
    (storeSchedule sched W)[i] = sched[i] := by
  rw [storeSchedule_getElem _ _ _ h, List.getD_eq_default _ _ hi]

/-! ### The key words (R73, R74) -/

theorem normalizedKey_eq (key : Vector Byte 64) (keylen : Word) (j : Nat) (h : j < 64) :
    normalizedKey key keylen j h = key.toList.getD (j % min keylen.toNat 64) 0#8 := by
  have : j % min keylen.toNat 64 < 64 := Nat.lt_of_le_of_lt (Nat.mod_le _ _) h
  simp [normalizedKey, keyBytes, this, List.getD_eq_getElem?_getD]

theorem keyWord_toNat (key : Vector Byte 64) (keylen : Word) (j : Nat) (h : j < 16) (nk : Nat → Byte)
    (hnk : ∀ i, nk i = key.toList.getD (i % min keylen.toNat 64) 0#8) :
    (keyWord key keylen j h).toNat = (nk (4 * j)).toNat * 2 ^ 24 + (nk (4 * j + 1)).toNat * 2 ^ 16 +
      (nk (4 * j + 2)).toNat * 2 ^ 8 + (nk (4 * j + 3)).toNat := by
  simp only [keyWord, be32_toNat, normalizedKey_eq, hnk]

end Sys2Proof.Machine
end

