-- ==== Sys2Proof/Laws/Window.lean ====
section
/-! SUPPORT. The laws of the register window: what a read returns and what a write does, register by register (R35 to
R42), and everything a host write can do. -/

namespace Sys2Proof.Machine

/-! ### The register map (R35) -/

theorem regAt_addr (r : HostReg) : regAt r.addr = some r := by
  cases r with
  | ctrl => rfl
  | status => rfl
  | keylen => rfl
  | dlen => rfl
  | keyw j => revert j; decide
  | dataw j => revert j; decide
  | schedw i => revert i; decide

theorem addr_of_regAt {a : WordAddr} {r : HostReg} (h : regAt a = some r) : r.addr = a := by
  have := a.isLt
  simp only [regAt] at h
  split_ifs at h <;> cases h <;> apply BitVec.eq_of_toNat_eq <;> simp [HostReg.addr] <;> omega

theorem addr_inj {r r' : HostReg} (h : r.addr = r'.addr) : r = r' := by
  have := regAt_addr r
  rw [h, regAt_addr] at this
  exact (Option.some.inj this).symm

/-! ### Reads -/

section
variable (s : State)

theorem shown_idle {s : State} (h : s.busy = false) (w : Word) : s.shown w = w := by simp [State.shown, h]

/-- What a read of a register returns, out of reset. -/
theorem memRead_reg (r : HostReg) (h : s.rst = false) : memRead s r.addr =
    match r with
    | .ctrl => 0#32
    | .status => s.readStatus
    | .keylen => s.shown s.keylen
    | .dlen => s.shown s.dlen
    | .keyw j => s.shown (getWord s.key j)
    | .dataw j => s.shown (getWord s.data j)
    | .schedw i => s.shown s.sched[i] := by
  simp only [memRead, h, regAt_addr]
  cases r <;> rfl

theorem memRead_reserved (a : WordAddr) (h : s.rst = false) (ha : regAt a = none) : memRead s a = 0#32 := by
  simp [memRead, h, ha]

theorem statusWord_toNat (b : Bool) (e : BitVec 3) (v : Bool) (r : BitVec 1) :
    (statusWord b e v r).toNat = b.toNat + e.toNat * 2 ^ 4 + v.toNat * 2 ^ 8 + r.toNat * 2 ^ 9 := by
  revert b e v r; decide

theorem errField_statusWord (b : Bool) (e : BitVec 3) (v : Bool) (r : BitVec 1) :
    errField (statusWord b e v r) = e := by
  revert b e v r; decide

/-- A `STATUS` word is below `2^10`. -/
theorem statusWord_lt (b : Bool) (e : BitVec 3) (v : Bool) (r : BitVec 1) : (statusWord b e v r).toNat < 2 ^ 10 := by
  have := e.isLt; have := r.isLt; have := Bool.toNat_lt b; have := Bool.toNat_lt v
  rw [statusWord_toNat]
  omega

/-- A read of `STATUS` shows `BUSY` as it is, whatever the other fields. -/
theorem readStatus_shape : ∃ e v r, s.readStatus = statusWord s.busy e v r := by
  simp only [State.readStatus]
  split_ifs with h
  · exact ⟨_, _, _, by rw [h]⟩
  · exact ⟨_, _, _, by rw [Bool.not_eq_true] at h; rw [h]⟩

/-! ### Writes -/

theorem memWrite_busy (a : WordAddr) (v : Word) (h : s.busy = true) : memWrite s a v = s := by simp [memWrite, h]

theorem memWrite_rst (a : WordAddr) (v : Word) (h : s.rst = true) : memWrite s a v = s := by simp [memWrite, h]

theorem memWrite_reserved (a : WordAddr) (v : Word) (ha : regAt a = none) : memWrite s a v = s := by
  simp only [memWrite, ha]
  split_ifs <;> rfl

/-- What a write of a register does, out of reset and with no command in progress. -/
theorem memWrite_reg (r : HostReg) (v : Word) (h : s.rst = false) (hb : s.busy = false) : memWrite s r.addr v =
    match r with
    | .ctrl => s.writeCtrl v
    | .status => s
    | .keylen => { s with keylen := v }
    | .dlen => { s with dlen := v }
    | .keyw j => { s with key := putWord s.key j v }
    | .dataw j => { s with data := putWord s.data j v }
    | .schedw _ => s := by
  simp only [memWrite, h, hb, regAt_addr]
  cases r <;> rfl

theorem writeCtrl_legal {s : State} {v : Word} (h : legalWord v = true) :
    s.writeCtrl v = { s with pending := v, busy := true } := by
  obtain ⟨i, hi⟩ := decode_of_legalWord h
  simp [State.writeCtrl, hi]

theorem writeCtrl_illegal {s : State} {v : Word} (h : legalWord v = false) : s.writeCtrl v = { s with err := 5#3 } := by
  obtain ⟨e, he⟩ := decode_of_illegalWord h
  simp [State.writeCtrl, he]

end

/-- Everything a host write can do. -/
inductive WriteEffect (s : State) (a : WordAddr) (v : Word) : State → Prop
  | ignored : WriteEffect s a v s
  | starts : s.busy = false → s.rst = false → a = HostReg.ctrl.addr → legalWord v = true →
      WriteEffect s a v { s with pending := v, busy := true }
  | illegal : s.busy = false → s.rst = false → a = HostReg.ctrl.addr → legalWord v = false →
      WriteEffect s a v { s with err := 5#3 }
  | keylen : s.busy = false → s.rst = false → a = HostReg.keylen.addr → WriteEffect s a v { s with keylen := v }
  | dlen : s.busy = false → s.rst = false → a = HostReg.dlen.addr → WriteEffect s a v { s with dlen := v }
  | keyw (j : Fin 16) : s.busy = false → s.rst = false → a = (HostReg.keyw j).addr →
      WriteEffect s a v { s with key := putWord s.key j v }
  | dataw (j : Fin 8) : s.busy = false → s.rst = false → a = (HostReg.dataw j).addr →
      WriteEffect s a v { s with data := putWord s.data j v }

theorem memWrite_effect (s : State) (a : WordAddr) (v : Word) : WriteEffect s a v (memWrite s a v) := by
  cases hr : s.rst with
  | true => rw [memWrite_rst _ _ _ hr]; exact .ignored
  | false =>
    cases hb : s.busy with
    | true => rw [memWrite_busy _ _ _ hb]; exact .ignored
    | false =>
      cases ha : regAt a with
      | none => rw [memWrite_reserved _ _ _ ha]; exact .ignored
      | some r =>
        obtain rfl := addr_of_regAt ha
        rw [memWrite_reg _ _ _ hr hb]
        cases r with
        | ctrl =>
          cases hl : legalWord v with
          | true => rw [writeCtrl_legal hl]; exact .starts hb hr rfl hl
          | false => rw [writeCtrl_illegal hl]; exact .illegal hb hr rfl hl
        | status => exact .ignored
        | keylen => exact .keylen hb hr rfl
        | dlen => exact .dlen hb hr rfl
        | keyw j => exact .keyw j hb hr rfl
        | dataw j => exact .dataw j hb hr rfl
        | schedw i => exact .ignored

section
variable {s : State} {a : WordAddr} {v : Word} {t : State} (h : WriteEffect s a v t)
include h

theorem WriteEffect.sched_eq : t.sched = s.sched := by cases h <;> rfl
theorem WriteEffect.svalid_eq : t.svalid = s.svalid := by cases h <;> rfl
theorem WriteEffect.svar_eq : t.svar = s.svar := by cases h <;> rfl
theorem WriteEffect.rst_eq : t.rst = s.rst := by cases h <;> rfl
theorem WriteEffect.host_eq : t.host = s.host := by cases h <;> rfl
theorem WriteEffect.turns_eq : t.turns = s.turns := by cases h <;> rfl
theorem WriteEffect.free_eq : t.free = s.free := by cases h <;> rfl

end

end Sys2Proof.Machine
end

