-- ==== Sys2Proof/Laws/Step.lean ====
section
/-! SUPPORT. The laws of the host's turn and the engine's turn, and everything a step can do, said once. -/

namespace Sys2Proof.Machine

/-! ### The host's turn -/

/-- The core after a host operation: a write lands in the window, anything else leaves the core alone. -/
def coreAfter (s : State) : Option HostOp → State
  | none => s
  | some (.wr a v) => memWrite s a v
  | some (.rd _ _) => s
  | some (.bnz _ _ _) => s
  | some (.check _) => s
  | some .halt => s

/-- The host's turn changes the core as `coreAfter` says, the host, and the counter of free values. -/
theorem hostTurn_eq (s : State) : ∃ h n, s.hostTurn = { coreAfter s s.nextHostOp with host := h, free := n } := by
  simp only [State.hostTurn]
  cases s.nextHostOp with
  | none => exact ⟨s.host, s.free, rfl⟩
  | some op =>
    cases op with
    | wr a v => exact ⟨_, (memWrite s a v).free, rfl⟩
    | rd k a => exact ⟨_, _, rfl⟩
    | bnz k m t => simp only [State.hostOp]; split_ifs <;> exact ⟨_, s.free, rfl⟩
    | check c => simp only [State.hostOp]; split_ifs <;> exact ⟨_, s.free, rfl⟩
    | halt => exact ⟨_, s.free, rfl⟩

/-- Where writes are ignored, the host's turn leaves the core alone. -/
theorem hostTurn_held (s : State) (h : ∀ a v, memWrite s a v = s) :
    ∃ hh n, s.hostTurn = { s with host := hh, free := n } := by
  obtain ⟨hh, n, e⟩ := hostTurn_eq s
  refine ⟨hh, n, ?_⟩
  rw [e]
  have : coreAfter s s.nextHostOp = s := by
    cases s.nextHostOp with
    | none => rfl
    | some op => cases op <;> simp [coreAfter, h]
  rw [this]

/-! ### The engine's turn -/

theorem engineTurn_ok {s : State} {i : Instr} (hb : s.busy = true) (hr : s.rst = false) (hd : decode s.pending = .ok i) :
    s.engineTurn = exec i s := by
  simp [State.engineTurn, State.engineEnabled, hb, hr, hd]

theorem engineTurn_error {s : State} {e : DecodeError} (hb : s.busy = true) (hr : s.rst = false)
    (hd : decode s.pending = .error e) : s.engineTurn = .fault .pendingNotLegal := by
  simp [State.engineTurn, State.engineEnabled, hb, hr, hd]

theorem engineTurn_idle {s : State} (h : ¬(s.busy = true ∧ s.rst = false)) : s.engineTurn = .next s := by
  have : s.engineEnabled = false := by simpa [State.engineEnabled] using h
  simp [State.engineTurn, this]

/-- With a legal word in `PENDING` the engine's turn is the meaning of its command. -/
theorem engineTurn_legal {s : State} (hb : s.busy = true) (hr : s.rst = false) (hl : legalWord s.pending = true) :
    ∃ i, decode s.pending = .ok i ∧ s.engineTurn = exec i s := by
  obtain ⟨i, hi⟩ := decode_of_legalWord hl
  exact ⟨i, hi, engineTurn_ok hb hr hi⟩

/-! ### Everything a step can do -/

/-- Everything a step can do, by who moves. -/
inductive StepEffect (s : State) : State → Prop
  | hostQuiet (h : HostAgent) (n : Nat) : s.mover = .host → StepEffect s { s.popTurn with host := h, free := n }
  | hostWrite (a : WordAddr) (v : Word) (u : State) (h : HostAgent) (n : Nat) : s.mover = .host →
      s.nextHostOp = some (.wr a v) → WriteEffect s.popTurn a v u → StepEffect s { u with host := h, free := n }
  | engineIdle : s.mover = .engine → ¬(s.busy = true ∧ s.rst = false) → StepEffect s s.popTurn
  | command (i : Instr) (t : State) : s.mover = .engine → s.busy = true → s.rst = false → decode s.pending = .ok i →
      CommandEffect i s.popTurn t → StepEffect s t
  | resetEdge : s.mover = .edge true → StepEffect s { s.popTurn.resetCore with rst := true }
  | releaseEdge : s.mover = .edge false → StepEffect s { s.popTurn with rst := false }

theorem step_effect {s t : State} (h : step s = .next t) : StepEffect s t := by
  simp only [step] at h
  cases hm : s.mover with
  | host =>
    simp only [hm, Host.Outcome.next.injEq] at h
    subst h
    obtain ⟨hh, n, e⟩ := hostTurn_eq s.popTurn
    rw [e]
    cases hop : s.popTurn.nextHostOp with
    | none => exact .hostQuiet _ _ hm
    | some op =>
      cases op with
      | wr a v => exact .hostWrite a v _ _ _ hm hop (memWrite_effect _ _ _)
      | rd k a => exact .hostQuiet _ _ hm
      | bnz k mask l => exact .hostQuiet _ _ hm
      | check c => exact .hostQuiet _ _ hm
      | halt => exact .hostQuiet _ _ hm
  | engine =>
    simp only [hm] at h
    by_cases hen : s.busy = true ∧ s.rst = false
    · cases hd : decode s.pending with
      | ok i =>
        rw [engineTurn_ok (s := s.popTurn) hen.1 hen.2 hd] at h
        exact .command i t hm hen.1 hen.2 hd (effect_of_exec h)
      | error e =>
        rw [engineTurn_error (s := s.popTurn) hen.1 hen.2 hd] at h
        cases h
    · rw [engineTurn_idle (s := s.popTurn) hen] at h
      cases h
      exact .engineIdle hm hen
  | edge r =>
    simp only [hm, Host.Outcome.next.injEq] at h
    subst h
    cases r with
    | true => exact .resetEdge hm
    | false => exact .releaseEdge hm

/-- A step takes one turn. -/
theorem StepEffect.turns_eq {s t : State} (h : StepEffect s t) : t.turns = s.turns.tail := by
  cases h with
  | hostWrite a v u h n hm hop hw => exact hw.turns_eq
  | command i t hm hb hr hd he => exact he.turns_eq
  | hostQuiet => rfl
  | engineIdle => rfl
  | resetEdge => rfl
  | releaseEdge => rfl

end Sys2Proof.Machine
end

