-- ==== Sys2Proof/Laws/Facade.lean ====
section
/-! SUPPORT. The laws of the host's register transactions: what loading a key or a block leaves in the core, and what
running a command answers (R62, R121, R123). -/

namespace Sys2Proof.Machine

/-! ### Running a command -/

/-- The core is ready for a transaction: no command in progress, not in reset. -/
structure Ready (s : State) : Prop where
  busy : s.busy = false
  rst : s.rst = false

theorem errField_read {t : State} (h : Ready t) : errField (memRead t HostReg.status.addr) = t.err := by
  rw [memRead_reg _ _ h.rst]
  simp only [State.readStatus, h.busy]
  exact errField_statusWord ..

/-- With the core ready, `RUN` is the command's meaning, and its error is passed on. -/
theorem runCommand_eq {s t : State} {i : Instr} (h : Ready s)
    (ht : exec i { s with pending := encode i, busy := true } = .next t) :
    runCommand s i = if t.err = 0#3 then .ok t else .error (.core t.err) := by
  have he := effect_of_exec ht
  have hl : decode (encode i) = .ok i := by cases i <;> rfl
  have hw : memWrite s HostReg.ctrl.addr (encode i) = { s with pending := encode i, busy := true } := by
    rw [memWrite_reg _ _ _ h.rst h.busy]
    exact writeCtrl_legal (legalWord_of_decode hl)
  have ht' : (memWrite s HostReg.ctrl.addr (encode i)).engineTurn = .next t := by
    rw [hw, ← ht]
    exact engineTurn_ok rfl h.rst hl
  have hr : Ready t := ⟨he.busy_eq, he.rst_eq.trans h.rst⟩
  simp only [runCommand, ht', errField_read hr]

theorem runCommand_ok {s t : State} {i : Instr} (h : Ready s)
    (ht : exec i { s with pending := encode i, busy := true } = .next t) (h0 : t.err = 0#3) : runCommand s i = .ok t := by
  rw [runCommand_eq h ht, if_pos h0]

/-- With the core ready, the block read back is the first `BS` bytes of `DATA`. -/
theorem readBlock_eq {t : State} (v : Variant) (h : Ready t) : readBlock t v = t.data.toList.take (bs v) := by
  have hm : ∀ j : Fin 8, memRead t (HostReg.dataw j).addr = getWord t.data j := by
    intro j; rw [memRead_reg _ _ h.rst]; exact shown_idle h.busy _
  simp only [readBlock, hm, getWord, unbe32_be32_0, unbe32_be32_1, unbe32_be32_2, unbe32_be32_3]
  cases v
  · have hf : (List.finRange 8).filter (fun j => decide (j.val < nw .shacal1)) = [0, 1, 2, 3, 4] := by decide
    rw [hf]
    apply List.ext_getElem
    · simp [bs]
    · intro i h1 h2
      have : i < 20 := by simp [bs] at h2; omega
      simp only [List.getElem_take, Vector.getElem_toList]
      interval_cases i <;> rfl
  · have hf : (List.finRange 8).filter (fun j => decide (j.val < nw .shacal2)) = [0, 1, 2, 3, 4, 5, 6, 7] := by decide
    rw [hf]
    apply List.ext_getElem
    · simp [bs]
    · intro i h1 h2
      have : i < 32 := by simp [bs] at h2; omega
      simp only [List.getElem_take, Vector.getElem_toList]
      interval_cases i <;> rfl

/-! ### Loading -/

theorem wordOfBytes_byte (bytes : List Byte) (i : Nat) :
    unbe32 (wordOfBytes bytes (i / 4)) (i % 4) = bytes.getD i 0#8 := by
  have h : i % 4 = 0 ∨ i % 4 = 1 ∨ i % 4 = 2 ∨ i % 4 = 3 := by omega
  rcases h with h | h | h | h <;> rw [h] <;>
    simp only [wordOfBytes, unbe32_be32_0, unbe32_be32_1, unbe32_be32_2, unbe32_be32_3] <;> congr 1 <;> omega

/-- The transactions of `DATAWj` for a list of words. -/
theorem writeAll_dataWrites (bytes : List Byte) (L : List (Fin 8)) : ∀ s : State, Ready s → ∃ D : Vector Byte 32,
    s.writeAll (L.filterMap fun j =>
      if 4 * j.val < bytes.length then some ((HostReg.dataw j).addr, wordOfBytes bytes j) else none) =
      { s with data := D } ∧
    ∀ i (h : i < 32), D[i] = if (∃ j ∈ L, j.val = i / 4) ∧ 4 * (i / 4) < bytes.length then bytes.getD i 0#8
      else s.data[i] := by
  induction L with
  | nil => exact fun s _ => ⟨s.data, rfl, by simp⟩
  | cons j L ih =>
    intro s h
    by_cases hj : 4 * j.val < bytes.length
    · have hw := memWrite_reg s (.dataw j) (wordOfBytes bytes j) h.rst h.busy
      obtain ⟨D, hD, hd⟩ := ih { s with data := putWord s.data j (wordOfBytes bytes j) } ⟨h.busy, h.rst⟩
      refine ⟨D, ?_, fun i hi => ?_⟩
      · simp only [List.filterMap_cons, hj, if_true, State.writeAll, List.foldl_cons, hw]
        exact hD
      · rw [hd i hi, putWord_getElem]
        by_cases hij : i / 4 = j.val
        · have : unbe32 (wordOfBytes bytes j) (i % 4) = bytes.getD i 0#8 := by rw [← hij]; exact wordOfBytes_byte _ _
          have hin : (∃ j' ∈ j :: L, j'.val = i / 4) ∧ 4 * (i / 4) < bytes.length :=
            ⟨⟨j, List.mem_cons_self, hij.symm⟩, by rw [hij]; exact hj⟩
          rw [if_pos hij, this, if_pos hin]
          split_ifs <;> rfl
        · have : j.val ≠ i / 4 := fun e => hij e.symm
          simp [hij, this]
    · obtain ⟨D, hD, hd⟩ := ih s h
      refine ⟨D, ?_, fun i hi => ?_⟩
      · simp only [List.filterMap_cons, hj, if_false]
        exact hD
      · rw [hd i hi]
        by_cases hij : j.val = i / 4
        · have : ¬ 4 * (i / 4) < bytes.length := hij ▸ hj
          simp [this]
        · simp [hij]

/-- The transactions of `KEYWj` for a list of words. -/
theorem writeAll_keyWrites (bytes : List Byte) (L : List (Fin 16)) : ∀ s : State, Ready s → ∃ K : Vector Byte 64,
    s.writeAll (L.filterMap fun j =>
      if 4 * j.val < bytes.length then some ((HostReg.keyw j).addr, wordOfBytes bytes j) else none) =
      { s with key := K } ∧
    ∀ i (h : i < 64), K[i] = if (∃ j ∈ L, j.val = i / 4) ∧ 4 * (i / 4) < bytes.length then bytes.getD i 0#8
      else s.key[i] := by
  induction L with
  | nil => exact fun s _ => ⟨s.key, rfl, by simp⟩
  | cons j L ih =>
    intro s h
    by_cases hj : 4 * j.val < bytes.length
    · have hw := memWrite_reg s (.keyw j) (wordOfBytes bytes j) h.rst h.busy
      obtain ⟨D, hD, hd⟩ := ih { s with key := putWord s.key j (wordOfBytes bytes j) } ⟨h.busy, h.rst⟩
      refine ⟨D, ?_, fun i hi => ?_⟩
      · simp only [List.filterMap_cons, hj, if_true, State.writeAll, List.foldl_cons, hw]
        exact hD
      · rw [hd i hi, putWord_getElem]
        by_cases hij : i / 4 = j.val
        · have : unbe32 (wordOfBytes bytes j) (i % 4) = bytes.getD i 0#8 := by rw [← hij]; exact wordOfBytes_byte _ _
          have hin : (∃ j' ∈ j :: L, j'.val = i / 4) ∧ 4 * (i / 4) < bytes.length :=
            ⟨⟨j, List.mem_cons_self, hij.symm⟩, by rw [hij]; exact hj⟩
          rw [if_pos hij, this, if_pos hin]
          split_ifs <;> rfl
        · have : j.val ≠ i / 4 := fun e => hij e.symm
          simp [hij, this]
    · obtain ⟨D, hD, hd⟩ := ih s h
      refine ⟨D, ?_, fun i hi => ?_⟩
      · simp only [List.filterMap_cons, hj, if_false]
        exact hD
      · rw [hd i hi]
        by_cases hij : j.val = i / 4
        · have : ¬ 4 * (i / 4) < bytes.length := hij ▸ hj
          simp [this]
        · simp [hij]

/-- `LDDATA`: `DLEN` and the bytes of the string, nothing else but bytes of `DATA` past the string. -/
theorem loadData_eq (bytes : List Byte) (s : State) (h : Ready s) (hl : bytes.length ≤ 32) : ∃ D : Vector Byte 32,
    s.writeAll (loadDataWrites bytes) = { s with data := D, dlen := BitVec.ofNat 32 bytes.length } ∧
    D.toList.take bytes.length = bytes := by
  obtain ⟨D, hD, hd⟩ := writeAll_dataWrites bytes (List.finRange 8)
    { s with dlen := BitVec.ofNat 32 bytes.length } ⟨h.busy, h.rst⟩
  refine ⟨D, ?_, ?_⟩
  · rw [loadDataWrites, State.writeAll, List.foldl_cons, memWrite_reg _ _ _ h.rst h.busy]
    exact hD
  · apply List.ext_getElem
    · simp; omega
    · intro i h1 h2
      simp only [List.getElem_take, Vector.getElem_toList]
      rw [hd i (by omega), if_pos ⟨⟨⟨i / 4, by omega⟩, List.mem_finRange _, rfl⟩, by omega⟩]
      simp [h2]

/-- `LDKEY`: `KEYLEN` and the bytes of the key that `KEY` holds, nothing else but bytes of `KEY` past the key. -/
theorem loadKey_eq (bytes : List Byte) (s : State) (h : Ready s) : ∃ K : Vector Byte 64,
    s.writeAll (loadKeyWrites bytes) = { s with key := K, keylen := BitVec.ofNat 32 bytes.length } ∧
    ∀ i (hi : i < 64), i < bytes.length → K[i] = bytes.getD i 0#8 := by
  obtain ⟨D, hD, hd⟩ := writeAll_keyWrites (bytes.take 64) (List.finRange 16)
    { s with keylen := BitVec.ofNat 32 bytes.length } ⟨h.busy, h.rst⟩
  refine ⟨D, ?_, fun i hi hib => ?_⟩
  · rw [loadKeyWrites, State.writeAll, List.foldl_cons, memWrite_reg _ _ _ h.rst h.busy]
    exact hD
  · rw [hd i (by omega), if_pos ⟨⟨⟨i / 4, by omega⟩, List.mem_finRange _, rfl⟩, by rw [List.length_take]; omega⟩]
    simp [List.getD_eq_getElem?_getD, hi]

/-! ### Blocks, padding and keys -/

theorem blocksOf_length (n q : Nat) : ∀ l, (blocksOf n l q).length = q := by
  induction q with
  | zero => intro l; rfl
  | succ q ih => intro l; simp [blocksOf, ih]

/-- The blocks together are the start of the byte string. -/
theorem blocksOf_flatten (n q : Nat) : ∀ l, (blocksOf n l q).flatten = l.take (q * n) := by
  induction q with
  | zero => intro l; simp [blocksOf]
  | succ q ih => intro l; rw [blocksOf, List.flatten_cons, ih, Nat.succ_mul, Nat.add_comm, List.take_add]

theorem blocksOf_mem_length (n q : Nat) :
    ∀ l : List Byte, q * n ≤ l.length → ∀ b ∈ blocksOf n l q, b.length = n := by
  induction q with
  | zero => intro l _ b hb; simp [blocksOf] at hb
  | succ q ih =>
    intro l hl b hb
    rw [Nat.succ_mul] at hl
    simp only [blocksOf, List.mem_cons] at hb
    rcases hb with rfl | hb
    · simp; omega
    · exact ih _ (by simp; omega) b hb

/-- Blocks joined and cut again are the same blocks. -/
theorem blocksOf_flatten_of (n : Nat) (bl : List (List Byte)) :
    (∀ b ∈ bl, b.length = n) → blocksOf n bl.flatten bl.length = bl := by
  induction bl with
  | nil => intro _; rfl
  | cons b bl ih =>
    intro h
    have hb := h b List.mem_cons_self
    simp only [List.flatten_cons, List.length_cons, blocksOf]
    rw [← hb, List.take_left, List.drop_left, hb, ih fun b hb => h b (List.mem_cons_of_mem _ hb)]

/-- PAD leaves the bytes before and appends their number, as the source's `pad` does (R63, R65). -/
theorem padFill_toList_take (data : Vector Byte 32) (m n : Nat) (hm : m ≤ n) (hn : n ≤ 32) :
    (padFill data m n).toList.take n = data.toList.take m ++ List.replicate (n - m) (BitVec.ofNat 8 (n - m)) := by
  apply List.ext_getElem
  · simp; omega
  · intro i h1 h2
    simp at h1
    simp only [List.getElem_take, List.getElem_append, padFill]
    by_cases hi : i < m
    · have h32 : i < 32 := by omega
      simp [hi, h32, Nat.not_le.mpr hi]
    · have : i < n := by omega
      simp [hi, this]

/-- A schedule depends on the meaningful bytes of the key alone (R73). -/
theorem expandedKey_congr {v : Variant} {K K' : Vector Byte 64} {l : Word} (hl : l ≠ 0#32)
    (h : ∀ i (hi : i < 64), i < l.toNat → K[i] = K'[i]) : expandedKey v K l = expandedKey v K' l := by
  apply expandWords_congr
  have hpos : 0 < l.toNat := by
    rcases Nat.eq_zero_or_pos l.toNat with h0 | h0
    · exact absurd (BitVec.eq_of_toNat_eq h0) hl
    · exact h0
  have hn : ∀ j (hj : j < 64), normalizedKey K l j hj = normalizedKey K' l j hj := by
    intro j hj
    simp only [normalizedKey]
    apply h
    have : j % keyBytes l < keyBytes l := Nat.mod_lt _ (by simp [keyBytes]; omega)
    simp only [keyBytes] at this ⊢
    omega
  intro j hj
  simp only [keyWord, hn]

end Sys2Proof.Machine
end

