-- ==== Sys2Proof/Laws/PerInstr.lean ====
section
/-! SUPPORT. Statements about every command as syntax, one lemma per constructor. -/

namespace Sys2Proof.Laws.EncodingShape

/-- The encoding of a command has `RSV` 0 (R52), a value of `OP` that names an operation (R53), that of the command, and
the variant bit of the command's variant (R54). -/
def Statement (i : Instr) : Prop :=
  reservedField (encode i) = 0#27 ∧ opOfField (opField (encode i)) = some i.op ∧
    variantOfBit (variantBit (encode i)) = i.variant

theorem expandS1 : Statement .expandS1 := by refine ⟨?_, ?_, ?_⟩ <;> decide
theorem encS1 : Statement .encS1 := by refine ⟨?_, ?_, ?_⟩ <;> decide
theorem decS1 : Statement .decS1 := by refine ⟨?_, ?_, ?_⟩ <;> decide
theorem padS1 : Statement .padS1 := by refine ⟨?_, ?_, ?_⟩ <;> decide
theorem unpadS1 : Statement .unpadS1 := by refine ⟨?_, ?_, ?_⟩ <;> decide
theorem expandS2 : Statement .expandS2 := by refine ⟨?_, ?_, ?_⟩ <;> decide
theorem encS2 : Statement .encS2 := by refine ⟨?_, ?_, ?_⟩ <;> decide
theorem decS2 : Statement .decS2 := by refine ⟨?_, ?_, ?_⟩ <;> decide
theorem padS2 : Statement .padS2 := by refine ⟨?_, ?_, ?_⟩ <;> decide
theorem unpadS2 : Statement .unpadS2 := by refine ⟨?_, ?_, ?_⟩ <;> decide

end Sys2Proof.Laws.EncodingShape
end

