-- ==== Sys2Proof/Laws/Safety.lean ====
section
/-! SUPPORT. The observable result of a run (R137) where no read is unspecified. -/

namespace Sys2Proof.Machine

/-- Out of reset and with no command in progress, a read does not depend on the counter of free values. -/
theorem memRead_free {s : State} (hr : s.rst = false) (hb : s.busy = false) (n : Nat) (a : WordAddr) :
    memRead { s with free := n } a = memRead s a := by
  simp [memRead, State.shown, State.readStatus, hr, hb]

/-- Out of reset, the result of an ended run is what the registers hold: no free value is drawn. -/
theorem observed_of_noReset {s : State} (hr : s.rst = false) (hb : s.busy = false) :
    s.observed = (readableRegs.map fun r => memRead s r.addr, s.host.temps) := by
  simp only [State.observed, memRead_free hr hb]
  rw [← Function.comp_def (fun r : HostReg => memRead s r.addr) Prod.fst, ← List.map_map, List.zipIdx_map_fst]

end Sys2Proof.Machine
end

