-- ==== Sys2Proof/Laws/Transform.lean ====
section
/-! SUPPORT. The laws of loading and storing the working state (R85), and that a run of rounds depends on the schedule
words it uses alone. -/

namespace Sys2Proof.Machine

/-! ### Loading and storing the working state (R85) -/

@[simp] theorem load1_store1 (data : Vector Byte 32) (s : Work1) : load1 (store1 data s) = s := by
  simp [load1, store1, getWord_putWord_same, getWord_putWord_ne]

@[simp] theorem load2_store2 (data : Vector Byte 32) (s : Work2) : load2 (store2 data s) = s := by
  simp [load2, store2, getWord_putWord_same, getWord_putWord_ne]

/-- A SHACAL-1 store leaves `DATA[20..31]` (R101). -/
theorem store1_getElem_ge (data : Vector Byte 32) (s : Work1) (i : Nat) (hi : i < 32) (h : 20 ≤ i) :
    (store1 data s)[i] = data[i] := by
  simp only [store1, putWord_getElem]
  rw [if_neg (by omega), if_neg (by omega), if_neg (by omega), if_neg (by omega), if_neg (by omega)]

theorem load1_congr {x y : Vector Byte 32} (h : ∀ i (hi : i < 32), i < 20 → x[i] = y[i]) : load1 x = load1 y := by
  simp only [load1, getWord]
  simp [h]

/-- Buffers with the same SHACAL-1 working state agree on the block. -/
theorem eq_of_load1_eq {x y : Vector Byte 32} (h : load1 x = load1 y) (i : Nat) (hi : i < 32) (h20 : i < 20) :
    x[i] = y[i] := by
  simp only [load1, Work1.mk.injEq] at h
  obtain ⟨h0, h1, h2, h3, h4⟩ := h
  have : i / 4 = 0 ∨ i / 4 = 1 ∨ i / 4 = 2 ∨ i / 4 = 3 ∨ i / 4 = 4 := by omega
  rcases this with hh | hh | hh | hh | hh
  · exact getElem_of_getWord_eq h0 hi hh
  · exact getElem_of_getWord_eq h1 hi hh
  · exact getElem_of_getWord_eq h2 hi hh
  · exact getElem_of_getWord_eq h3 hi hh
  · exact getElem_of_getWord_eq h4 hi hh

/-- Buffers with the same SHACAL-1 working state and the same rest are equal. -/
theorem eq_of_load1_eq_of_rest {x y : Vector Byte 32} (h : load1 x = load1 y)
    (ht : ∀ i (hi : i < 32), 20 ≤ i → x[i] = y[i]) : x = y := by
  apply Vector.ext
  intro i hi
  rcases Nat.lt_or_ge i 20 with h20 | h20
  · exact eq_of_load1_eq h i hi h20
  · exact ht i hi h20

/-- Buffers with the same SHACAL-2 working state are equal. -/
theorem eq_of_load2_eq {x y : Vector Byte 32} (h : load2 x = load2 y) : x = y := by
  apply Vector.ext
  intro i hi
  simp only [load2, Work2.mk.injEq] at h
  obtain ⟨h0, h1, h2, h3, h4, h5, h6, h7⟩ := h
  have : i / 4 = 0 ∨ i / 4 = 1 ∨ i / 4 = 2 ∨ i / 4 = 3 ∨ i / 4 = 4 ∨ i / 4 = 5 ∨ i / 4 = 6 ∨ i / 4 = 7 := by omega
  rcases this with hh | hh | hh | hh | hh | hh | hh | hh
  · exact getElem_of_getWord_eq h0 hi hh
  · exact getElem_of_getWord_eq h1 hi hh
  · exact getElem_of_getWord_eq h2 hi hh
  · exact getElem_of_getWord_eq h3 hi hh
  · exact getElem_of_getWord_eq h4 hi hh
  · exact getElem_of_getWord_eq h5 hi hh
  · exact getElem_of_getWord_eq h6 hi hh
  · exact getElem_of_getWord_eq h7 hi hh

/-! ### Runs of rounds use the schedule words below their count alone -/

section
variable {W W' : Nat → Word} (n : Nat) (h : ∀ t < n, W t = W' t)
include h

theorem encRounds1_congr (s : Work1) : encRounds1 W n s = encRounds1 W' n s := by
  induction n with
  | zero => rfl
  | succ n ih => rw [encRounds1, encRounds1, h n (by omega), ih fun t ht => h t (by omega)]

theorem decRounds1_congr (s : Work1) : decRounds1 W n s = decRounds1 W' n s := by
  induction n generalizing s with
  | zero => rfl
  | succ n ih => rw [decRounds1, decRounds1, h n (by omega), ih fun t ht => h t (by omega)]

theorem encRounds2_congr (s : Work2) : encRounds2 W n s = encRounds2 W' n s := by
  induction n with
  | zero => rfl
  | succ n ih => rw [encRounds2, encRounds2, h n (by omega), ih fun t ht => h t (by omega)]

theorem decRounds2_congr (s : Work2) : decRounds2 W n s = decRounds2 W' n s := by
  induction n generalizing s with
  | zero => rfl
  | succ n ih => rw [decRounds2, decRounds2, h n (by omega), ih fun t ht => h t (by omega)]

end

end Sys2Proof.Machine
end

