-- ==== Sys2Proof/Tests/Slice0.lean ====
section
/-! SUPPORT. Tests of the model: ill-formed terms that the checks refuse, words written out from the encoding table,
single steps on the vectors of spec/95_test_vectors.md, and for every statement with hypotheses a state and operands that
meet them. Expected values come from the spec's tables. -/

namespace Sys2Proof.Tests

open Sys2Proof.Machine

/-! ### Small states -/

/-- The last `n` bytes of a number, the first byte most significant: a byte string as the spec writes it. -/
def bytes (n w : Nat) : List Byte := (List.range n).map fun i => BitVec.ofNat 8 (w / 256 ^ (n - 1 - i))

/-- The reset state with a key and data loaded. -/
def loaded (key data : List Byte) : State :=
  { State.reset with
    keylen := BitVec.ofNat 32 key.length, key := Vector.ofFn fun i => key.getD i 0#8
    dlen := BitVec.ofNat 32 data.length, data := Vector.ofFn fun i => data.getD i 0#8 }

/-- A loaded state whose key is expanded for a variant, over an all-zero schedule. -/
def expanded (v : Variant) (key data : List Byte) : State :=
  let s := loaded key data
  { s with sched := storeSchedule (Vector.replicate 80 0#32) (expandedKey v s.key s.keylen), svalid := true, svar := v }

/-- A state that claims an all-zero schedule of a variant: what the zero key expands to (K6). -/
def zeroSchedule (v : Variant) (data : List Byte) : State :=
  { loaded [0#8] data with sched := Vector.replicate 80 0#32, svalid := true, svar := v }

/-- The step that runs a command. -/
def run (i : Instr) (s : State) : Result := step (s.withFetchWord 32 (encode i).toNat)

/-- The answer is a next state with a property. -/
def answers (r : Result) (p : State → Bool) : Bool :=
  match r with
  | .next t => p t
  | .fault _ => false
  | .refused _ => false

/-- The first bytes of `DATA`. -/
def block (t : State) (n : Nat) : List Byte := t.data.toList.take n

/-- A command ended without error, with `DATA` and `DLEN` as given. -/
def endsWith (r : Result) (data : List Byte) (dlen : Word) : Bool :=
  answers r fun t => block t data.length == data && t.dlen == dlen && t.err == 0#3 && !t.busy

/-- A command ended with an error, with `DATA` and `DLEN` as before. -/
def raises (r : Result) (s : State) (code : BitVec 3) : Bool :=
  answers r fun t => t.data == s.data && t.dlen == s.dlen && t.err == code && !t.busy

/-- A host at the first line of a program, out of reset. -/
def hosting (ops : List HostOp) : State := State.reset.withProgram ops

/-! ### The checks refuse ill-formed terms -/

theorem test_branchOutOfTheSourceIsRefused : HostLine.wellFormed 3 (.bnz 0 1#32 3) = false := by decide
theorem test_emptyKeyLineIsRefused : HostLine.wellFormed 1 (.ldkey []) = false := by decide
theorem test_longDataLineIsRefused : HostLine.wellFormed 1 (.lddata (List.replicate 33 0#8)) = false := by decide
theorem test_fullDataLineIsAccepted : HostLine.wellFormed 1 (.lddata (List.replicate 32 0#8)) = true := by decide
theorem test_illFormedSourceIsRefused : wellFormedSource [.halt, .bnz 0 1#32 2] = false := by decide
theorem test_illFormedOperationIsRefused : HostOp.wellFormed 2 (.bnz 0 1#32 2) = false := by decide
theorem test_illFormedProgramIsRefused : wellFormedProgram [.halt, .bnz 0 1#32 2] = false := by decide

/-! ### Decoding: words written out from the table of R58, and words that section 2.5 of the vectors calls illegal -/

theorem test_decode_expandS1 : decode 0b00000000000000000000000000000001#32 = .ok .expandS1 := by decide
theorem test_decode_encS1 : decode 0b00000000000000000000000000000010#32 = .ok .encS1 := by decide
theorem test_decode_decS1 : decode 0b00000000000000000000000000000011#32 = .ok .decS1 := by decide
theorem test_decode_padS1 : decode 0b00000000000000000000000000000100#32 = .ok .padS1 := by decide
theorem test_decode_unpadS1 : decode 0b00000000000000000000000000000101#32 = .ok .unpadS1 := by decide
theorem test_decode_expandS2 : decode 0b00000000000000000000000000010001#32 = .ok .expandS2 := by decide
theorem test_decode_encS2 : decode 0b00000000000000000000000000010010#32 = .ok .encS2 := by decide
theorem test_decode_decS2 : decode 0b00000000000000000000000000010011#32 = .ok .decS2 := by decide
theorem test_decode_padS2 : decode 0b00000000000000000000000000010100#32 = .ok .padS2 := by decide
theorem test_decode_unpadS2 : decode 0b00000000000000000000000000010101#32 = .ok .unpadS2 := by decide

theorem test_illegalWordsAreRefused :
    [0x00000000#32, 0x00000006#32, 0x0000000F#32, 0x00000010#32, 0x00000016#32, 0x00000021#32, 0x80000002#32,
      0xFFFFFFFF#32].map legalWord = List.replicate 8 false := by decide

theorem test_tableWordsDecode :
    [1, 2, 3, 4, 5, 17, 18, 19, 20, 21].map (decodeTableWord 32) =
      [.expandS1, .encS1, .decS1, .padS1, .unpadS1, .expandS2, .encS2, .decS2, .padS2, .unpadS2].map some := by decide

theorem test_everyCommandRunsRightAfterReset :
    [1, 2, 3, 4, 5, 17, 18, 19, 20, 21].all fun w => answers (step (State.reset.withFetchWord 32 w)) fun t => !t.busy := by
  decide

/-! ### One step of each command, on the vectors of section 2 -/

/-- A4, and that `DATA[20..31]` stays. -/
theorem test_padS1 : endsWith (run .padS1 { loaded [] (bytes 5 0x20686f6c64) with data := (loaded []
      (bytes 32 0x20686f6c64AAAAAAAAAAAAAAAAAAAAAAAAAAAAAA000102030405060708090a0b)).data })
    (bytes 32 0x20686f6c640f0f0f0f0f0f0f0f0f0f0f0f0f0f0f000102030405060708090a0b) 20#32 = true := by decide +kernel

/-- A12: `PAD.S1` checks against 20. -/
theorem test_padS1_atTwenty : raises (run .padS1 (loaded [] (bytes 20 1))) (loaded [] (bytes 20 1)) 2#3 = true := by
  decide +kernel

/-- A9. -/
theorem test_padS2 : endsWith (run .padS2 (loaded [] (bytes 3 0x616263)))
    (bytes 3 0x616263 ++ List.replicate 29 0x1d#8) 32#32 = true := by decide +kernel

/-- A10: one byte is missing. -/
theorem test_padS2_oneByte : endsWith (run .padS2 (loaded [] (List.replicate 31 0#8)))
    (List.replicate 31 0#8 ++ [1#8]) 32#32 = true := by decide +kernel

/-- UP4: `n' = 1` passes. -/
theorem test_unpadS1 : endsWith (run .unpadS1 (loaded [] (bytes 20 0x030301))) (bytes 20 0x030301) 19#32 = true := by
  decide +kernel

/-- UP5: byte 18 does not match. -/
theorem test_unpadS1_mismatch : raises (run .unpadS1 (loaded [] (bytes 20 0x030302))) (loaded [] (bytes 20 0x030302)) 3#3 =
    true := by decide +kernel

/-- UP14. -/
theorem test_unpadS2 : endsWith (run .unpadS2 (loaded [] (bytes 3 0x616263 ++ List.replicate 29 0x1d#8)))
    (bytes 3 0x616263) 3#32 = true := by decide +kernel

/-- UP18: SHACAL2 reads byte 31, not byte 19. -/
theorem test_unpadS2_readsByte31 :
    raises (run .unpadS2 (loaded [] (List.replicate 20 0x14#8 ++ List.replicate 12 0#8)))
      (loaded [] (List.replicate 20 0x14#8 ++ List.replicate 12 0#8)) 3#3 = true := by decide +kernel

/-- K1. -/
theorem test_expandS1 : (answers (run .expandS1 (loaded (bytes 2 0x4142) [])) fun t =>
    t.sched[0] == 0x41424142#32 && t.sched[16] == 0#32 && t.sched[19] == 0x82848284#32 && t.sched[64] == 0x36c636c6#32 &&
    t.sched[79] == 0x4efc4efc#32 && t.svalid && t.svar == .shacal1 && t.err == 0#3) = true := by decide +kernel

/-- K14: no key. -/
theorem test_expandS1_emptyKey : (answers (run .expandS1 (zeroSchedule .shacal2 [])) fun t => t.svalid) = true ∧
    (answers (run .expandS1 { zeroSchedule .shacal2 [] with keylen := 0#32 }) fun t =>
      t.err == 1#3 && !t.svalid && t.svar == .shacal2 && t.sched[79] == 0#32) = true := by
  constructor <;> decide +kernel

/-- K8: the last sixteen words stay. -/
theorem test_expandS2 : (answers (run .expandS2 { loaded (bytes 2 0x4142) [] with sched := Vector.replicate 80 7#32 })
    fun t => t.sched[16] == 0x08181797#32 && t.sched[23] == 0x5499e0ae#32 && t.sched[63] == 0x30696de5#32 &&
      t.sched[64] == 7#32 && t.sched[79] == 7#32 && t.svar == .shacal2) = true := by decide +kernel

/-- K16: `KEYLEN = 0xFFFFFFFF` is a key of 64 bytes; K9. -/
theorem test_expandS2_longKey : (answers (run .expandS2 { loaded ((List.range 64).map (BitVec.ofNat 8)) [] with
    keylen := 0xFFFFFFFF#32 }) fun t => t.sched[19] == 0x9bef911d#32 && t.sched[63] == 0x24a97715#32) = true := by
  decide +kernel

/-- B5. -/
theorem test_encS1 : endsWith
    (run .encS1 (expanded .shacal1 (bytes 2 0x4142) (bytes 20 0x303132333435363738396162636465666768696a)))
    (bytes 20 0x8c3f05980605a6e36a9962d916ab96a98bd2919f) 20#32 = true := by decide +kernel

/-- E3: the resident schedule is the other variant's. -/
theorem test_encS1_otherVariant : raises (run .encS1 (zeroSchedule .shacal2 (bytes 20 0)))
    (zeroSchedule .shacal2 (bytes 20 0)) 4#3 = true := by decide +kernel

/-- B3, with the bytes past the block kept (E8). -/
theorem test_decS1 : endsWith (run .decS1 { zeroSchedule .shacal1 (List.replicate 32 0xff#8) with dlen := 20#32 })
    (bytes 32 0x806f558c192c1d4ad65160c68697716f172f6b2fffffffffffffffffffffffff) 20#32 = true := by decide +kernel

/-- E2: the length is checked before the schedule. -/
theorem test_decS1_lengthFirst : raises (run .decS1 (loaded [] [])) (loaded [] []) 2#3 = true := by decide +kernel

/-- B16. -/
theorem test_encS2 : endsWith
    (run .encS2 (expanded .shacal2 (bytes 3 0x6b6579) (bytes 3 0x616263 ++ List.replicate 29 0x1d#8)))
    (bytes 32 0xf92db4cefaf240a9f3109e1a1d4a7bb7030a76d957ebe397f1d652c1ba6c64e4) 32#32 = true := by decide +kernel

/-- E4: SHACAL2 needs `DLEN = 32`. -/
theorem test_encS2_badLength : raises (run .encS2 (zeroSchedule .shacal2 (bytes 20 0)))
    (zeroSchedule .shacal2 (bytes 20 0)) 2#3 = true := by decide +kernel

/-- B13. -/
theorem test_decS2 : endsWith (run .decS2 (zeroSchedule .shacal2 (List.replicate 32 0xff#8)))
    (bytes 32 0xdbe9f7f41fc5f636b2b0984cd1eb2f925e412745e6a8d1b984c129f6b3a905f7) 32#32 = true := by decide +kernel

/-- E1: no schedule after reset. -/
theorem test_decS2_noSchedule : raises (run .decS2 (loaded [] (bytes 32 0))) (loaded [] (bytes 32 0)) 4#3 = true := by
  decide +kernel

/-! ### The window and the host -/

/-- R36: the block `303132...` puts `0x30313233` in `DATAW0`. -/
theorem test_dataWordIsBigEndian : memRead (loaded [] (bytes 4 0x30313233)) (HostReg.dataw 0).addr = 0x30313233#32 := by
  decide

/-- Program P3, its last `STATUS`: `ERR = 2`, so the word is `0x20`. -/
theorem test_statusShowsErr : memRead { State.reset with err := 2#3 } HostReg.status.addr = 0x20#32 := by decide

/-- R38: offset `0x0A0` is reserved. -/
theorem test_reservedOffsetReadsZero : regAt 0x028#10 = none ∧ memRead (loaded [] []) 0x028#10 = 0#32 := by decide

/-- R62: `CHECK` takes the code from bits 6:4 of `t14`. -/
theorem test_checkComparesTheErrField :
    (State.hostOp { hosting [] with host := { HostAgent.initial with temps := Vector.replicate 16 0x150#32 } }
      (.check 5#3)).host.line = 1 ∧
    (State.hostOp { hosting [] with host := { HostAgent.initial with temps := Vector.replicate 16 0x150#32 } }
      (.check 4#3)).host.status = .checkFailed := by decide

/-- R62: the expansion of `LDKEY`, with the short word filled with zeros, and of `RUN` with its own label. -/
theorem test_pseudoInstructionsExpand :
    assemble [.ldkey (bytes 2 0x4142), .run .expandS1] =
      [.wr 0x002#10 2#32, .wr 0x010#10 0x41420000#32, .wr 0x000#10 1#32, .rd 15 0x001#10, .bnz 15 1#32 3] := by
  decide +kernel

/-! ### The hypotheses of the statements can be met -/

theorem witness_LegalWordsAndTheFateOfIllegalOnes :
    State.reset.busy = false ∧ State.reset.rst = false ∧ legalWord 0x21#32 = false ∧ legalWord 0#32 = false := by decide

theorem witness_DecodeOfEncodeGivesTheCommandBack : Instr.wellFormed .unpadS2 = true := by decide

theorem witness_StepRunsTheCommandInPending :
    let s : State := { State.reset with pending := 0x14#32, busy := true }
    s.mover = .engine ∧ s.busy = true ∧ s.rst = false ∧ decode s.pending = .ok .padS2 := by decide

theorem witness_PadS1FillsThePartialBlock :
    (loaded [] []).dlen.toNat < 20 ∧ (loaded [] (bytes 19 0)).dlen.toNat < 20 ∧ 20 ≤ (loaded [] (bytes 20 0)).dlen.toNat := by
  decide

theorem witness_PadS2FillsThePartialBlock :
    (loaded [] []).dlen.toNat < 32 ∧ (loaded [] (bytes 31 0)).dlen.toNat < 32 ∧ 32 ≤ (loaded [] (bytes 32 0)).dlen.toNat := by
  decide

/-- Each clause: another length; the valid padding values 1 and 20; the invalid ones 0, 21, and a mismatch. -/
theorem witness_UnpadS1StripsValidPadding :
    (loaded [] (bytes 19 0)).dlen ≠ 20#32 ∧
    (∀ d ∈ [bytes 20 1, List.replicate 20 20#8], (loaded [] d).dlen = 20#32 ∧ 1 ≤ (loaded [] d).data[19].toNat ∧
      (loaded [] d).data[19].toNat ≤ 20 ∧ ∀ i : Fin 32, 20 - (loaded [] d).data[19].toNat ≤ i.val → i.val < 20 →
        (loaded [] d).data[i] = (loaded [] d).data[19]) ∧
    (∀ d ∈ [bytes 20 0, List.replicate 20 21#8, bytes 20 3], (loaded [] d).dlen = 20#32 ∧
      ¬(1 ≤ (loaded [] d).data[19].toNat ∧ (loaded [] d).data[19].toNat ≤ 20 ∧
        ∀ i : Fin 32, 20 - (loaded [] d).data[19].toNat ≤ i.val → i.val < 20 →
          (loaded [] d).data[i] = (loaded [] d).data[19])) := by decide +kernel

theorem witness_UnpadS2StripsValidPadding :
    (loaded [] (bytes 20 0)).dlen ≠ 32#32 ∧
    (∀ d ∈ [bytes 32 1, List.replicate 32 32#8], (loaded [] d).dlen = 32#32 ∧ 1 ≤ (loaded [] d).data[31].toNat ∧
      (loaded [] d).data[31].toNat ≤ 32 ∧ ∀ i : Fin 32, 32 - (loaded [] d).data[31].toNat ≤ i.val →
        (loaded [] d).data[i] = (loaded [] d).data[31]) ∧
    (∀ d ∈ [bytes 32 0, List.replicate 32 33#8, bytes 32 3], (loaded [] d).dlen = 32#32 ∧
      ¬(1 ≤ (loaded [] d).data[31].toNat ∧ (loaded [] d).data[31].toNat ≤ 32 ∧
        ∀ i : Fin 32, 32 - (loaded [] d).data[31].toNat ≤ i.val →
          (loaded [] d).data[i] = (loaded [] d).data[31])) := by decide +kernel

theorem witness_PaddedLengthIsTheNextMultiple : 0 < bs .shacal1 ∧ 0 < bs .shacal2 := by decide

theorem witness_UnpadUndoesPad : 0 < bs .shacal1 ∧ bs .shacal1 < 256 ∧ 0 < bs .shacal2 ∧ bs .shacal2 < 256 := by decide

/-- An empty message, and one of a block and a byte. -/
theorem witness_PadCommandComputesTheSourcesPad :
    ∀ m ∈ [[], bytes 21 0x61], (loaded [] (m.drop (m.length / 20 * 20))).dlen.toNat = m.length % bs .shacal1 ∧
      (loaded [] (m.drop (m.length / 20 * 20))).data.toList.take (m.length % bs .shacal1) =
        m.drop (m.length / bs .shacal1 * bs .shacal1) := by decide +kernel

theorem witness_UnpadCommandComputesTheSourcesUnpad :
    1 ≤ 2 ∧ (List.replicate 64 32#8).length = 2 * bs .shacal2 ∧
    (loaded [] (List.replicate 32 32#8)).dlen.toNat = bs .shacal2 ∧
    (loaded [] (List.replicate 32 32#8)).data.toList.take (bs .shacal2) =
      (List.replicate 64 32#8).drop ((2 - 1) * bs .shacal2) := by decide +kernel

/-- UP3 and UP5: from `n = 3` to 2; and a full SHACAL2 block of padding, from 32 to 2. -/
theorem witness_TamperedRunOfTwoOrMoreIsRejected :
    ∀ p ∈ [(Variant.shacal1, bytes 20 0x030303), (.shacal2, List.replicate 32 32#8)],
      (loaded [] p.2).dlen.toNat = bs p.1 ∧ PaddingValid (loaded [] p.2).data p.1 ∧
      2 ≤ (lastByte (loaded [] p.2).data p.1).toNat ∧ 2 ≤ (2#8).toNat ∧ 2#8 ≠ lastByte (loaded [] p.2).data p.1 := by
  decide +kernel

theorem witness_ExpandS1DerivesTheSchedule :
    (loaded [] []).keylen = 0#32 ∧ (loaded [0#8] []).keylen ≠ 0#32 ∧ ∃ nk : Nat → Byte,
      ∀ i, nk i = (loaded [0#8] []).key.toList.getD (i % min (loaded [0#8] []).keylen.toNat 64) 0#8 :=
  ⟨by decide, by decide, _, fun _ => rfl⟩

theorem witness_ExpandS2DerivesTheSchedule :
    (loaded [] []).keylen = 0#32 ∧ (loaded (bytes 65 7) []).keylen ≠ 0#32 ∧ ∃ nk : Nat → Byte,
      ∀ i, nk i = (loaded (bytes 65 7) []).key.toList.getD (i % min (loaded (bytes 65 7) []).keylen.toNat 64) 0#8 :=
  ⟨by decide, by decide, _, fun _ => rfl⟩

/-- Key "AB" and "ABAB": the same normalized key. Keys "AB" and "AC": two different ones. -/
theorem witness_SameScheduleIffSameNormalizedKey :
    (loaded (bytes 2 0x4142) []).keylen ≠ 0#32 ∧ (loaded (bytes 4 0x41424142) []).keylen ≠ 0#32 ∧
    (loaded (bytes 2 0x4143) []).keylen ≠ 0#32 := by decide

theorem witness_Shacal1ForwardRoundByRanges :
    (19 < 20) ∧ (20 ≤ 20 ∧ 39 < 40) ∧ (40 ≤ 40 ∧ 59 < 60) ∧ (60 ≤ 60 ∧ 79 < 80) := by decide

theorem witness_EncS1RunsEightyForwardRounds :
    (loaded [] (bytes 21 0)).dlen ≠ 20#32 ∧
    ((loaded [] (bytes 20 0)).dlen = 20#32 ∧ ¬((loaded [] (bytes 20 0)).svalid = true ∧ (loaded [] (bytes 20 0)).svar = .shacal1)) ∧
    ((zeroSchedule .shacal2 (bytes 20 0)).dlen = 20#32 ∧
      ¬((zeroSchedule .shacal2 (bytes 20 0)).svalid = true ∧ (zeroSchedule .shacal2 (bytes 20 0)).svar = .shacal1)) ∧
    ((zeroSchedule .shacal1 (bytes 20 0)).dlen = 20#32 ∧ (zeroSchedule .shacal1 (bytes 20 0)).svalid = true ∧
      (zeroSchedule .shacal1 (bytes 20 0)).svar = .shacal1) := by decide

theorem witness_DecS1RunsEightyInverseRounds :
    (loaded [] (bytes 19 0)).dlen ≠ 20#32 ∧
    ((zeroSchedule .shacal2 (bytes 20 0)).dlen = 20#32 ∧
      ¬((zeroSchedule .shacal2 (bytes 20 0)).svalid = true ∧ (zeroSchedule .shacal2 (bytes 20 0)).svar = .shacal1)) ∧
    ((zeroSchedule .shacal1 (bytes 20 0)).dlen = 20#32 ∧ (zeroSchedule .shacal1 (bytes 20 0)).svalid = true ∧
      (zeroSchedule .shacal1 (bytes 20 0)).svar = .shacal1) := by decide

theorem witness_EncS2RunsSixtyFourForwardRounds :
    (loaded [] (bytes 20 0)).dlen ≠ 32#32 ∧
    ((zeroSchedule .shacal1 (bytes 32 0)).dlen = 32#32 ∧
      ¬((zeroSchedule .shacal1 (bytes 32 0)).svalid = true ∧ (zeroSchedule .shacal1 (bytes 32 0)).svar = .shacal2)) ∧
    ((zeroSchedule .shacal2 (bytes 32 0)).dlen = 32#32 ∧ (zeroSchedule .shacal2 (bytes 32 0)).svalid = true ∧
      (zeroSchedule .shacal2 (bytes 32 0)).svar = .shacal2) := by decide

theorem witness_DecS2RunsSixtyFourInverseRounds :
    (loaded [] (bytes 31 0)).dlen ≠ 32#32 ∧
    ((loaded [] (bytes 32 0)).dlen = 32#32 ∧ ¬((loaded [] (bytes 32 0)).svalid = true ∧ (loaded [] (bytes 32 0)).svar = .shacal2)) ∧
    ((zeroSchedule .shacal2 (bytes 32 0)).dlen = 32#32 ∧ (zeroSchedule .shacal2 (bytes 32 0)).svalid = true ∧
      (zeroSchedule .shacal2 (bytes 32 0)).svar = .shacal2) := by decide

theorem witness_EncryptionAndDecryptionUndoEachOther :
    ∀ v ∈ [Variant.shacal1, .shacal2], (zeroSchedule v (bytes (bs v) 7)).dlen.toNat = bs v ∧
      (zeroSchedule v (bytes (bs v) 7)).svalid = true ∧ (zeroSchedule v (bytes (bs v) 7)).svar = v := by decide

/-- Two states that agree on the block and the schedule and differ in the key, in `ERR` and in the rest of `DATA`. -/
theorem witness_TransformDependsOnBlockAndScheduleAlone :
    let s := zeroSchedule .shacal1 (bytes 20 7)
    let s' := { s with key := Vector.replicate 64 1#8, err := 3#3, data := s.data.set 31 9#8 }
    s.dlen.toNat = bs .shacal1 ∧ s.svalid = true ∧ s.svar = .shacal1 ∧ s'.dlen.toNat = bs .shacal1 ∧ s'.svalid = true ∧
      s'.svar = .shacal1 ∧ s.data ≠ s'.data ∧ (∀ i : Fin 32, i.val < bs .shacal1 → s.data[i] = s'.data[i]) ∧
      (∀ i : Fin 80, i.val < rounds .shacal1 → s.sched[i] = s'.sched[i]) := by decide +kernel

theorem witness_RaisedErrorChangesNothingElse :
    (∃ t, exec .padS1 (loaded [] (bytes 20 0)) = .next t ∧ t.err ≠ 0#3) ∧
    (∃ t, exec .expandS2 (loaded [] []) = .next t ∧ t.err ≠ 0#3) :=
  ⟨⟨_, rfl, by decide⟩, ⟨_, rfl, by decide⟩⟩

theorem witness_EachCommandEndsWithTheCodesOfItsRow :
    State.reset.busy = false ∧ State.reset.rst = false ∧ legalWord 0x16#32 = false := by decide

/-- Each register named, the last ones of each range included, and another offset. -/
theorem witness_WrittenRegisterReadsBackAndOthersStay :
    State.reset.busy = false ∧ State.reset.rst = false ∧ (HostReg.keyw 15).addr ≠ (HostReg.dataw 0).addr ∧
    (HostReg.dataw 7).addr ≠ (HostReg.schedw 0).addr ∧ HostReg.keylen.addr ≠ HostReg.dlen.addr := by decide

theorem witness_BuffersArePackedBigEndianInTheWindow : State.reset.busy = false ∧ State.reset.rst = false := by decide

theorem witness_CtrlWriteStartsALegalCommand :
    State.reset.rst = false ∧ State.reset.busy = false ∧ legalWord 0x15#32 = true ∧ legalWord 0x20#32 = false ∧
    ({ State.reset with busy := true } : State).rst = false := by decide

/-- Reserved offsets: the first and the last of each hole of the map. -/
theorem witness_ReservedSpaceAndReadOnlyRegisters :
    State.reset.rst = false ∧ State.reset.busy = false ∧
    [0x004#10, 0x00F#10, 0x028#10, 0x03F#10, 0x090#10, 0x3FF#10].map regAt = List.replicate 6 none := by decide

theorem witness_StatusReadsItsFields :
    State.reset.rst = false ∧ State.reset.busy = false ∧ ({ State.reset with busy := true } : State).busy = true := by decide

theorem witness_HostTurnWhileBusyLeavesTheCoreAlone :
    let s := { hosting [writeReg .ctrl 1#32] with busy := true, turns := [.host] }
    s.busy = true ∧ s.mover = .host := by decide

theorem witness_WriteWithoutWaitingRacesTheCommand :
    let s := { hosting [writeReg .keylen 3#32] with busy := true, pending := 1#32 }
    s.busy = true ∧ s.rst = false ∧ legalWord s.pending = true ∧
      s.nextHostOp = some (.wr HostReg.keylen.addr 3#32) := by decide

theorem witness_OnlyTheHostOrResetChangesTheKey :
    (∃ t, step (hosting [writeReg (.keyw 15) 1#32]) = .next t ∧ t.key ≠ (hosting []).key) ∧
    (∃ t, step { loaded [1#8] [] with turns := [.edge true] } = .next t ∧ t.keylen ≠ (loaded [1#8] []).keylen) :=
  ⟨⟨_, rfl, by decide⟩, ⟨_, rfl, by decide⟩⟩

theorem witness_OnlyExpandOrResetChangesTheSchedule :
    ∃ t, step { zeroSchedule .shacal1 [] with keylen := 0#32, busy := true, pending := 1#32 } = .next t ∧
      t.svalid ≠ (zeroSchedule .shacal1 []).svalid :=
  ⟨_, rfl, by decide⟩

theorem witness_OnlyHostPadUnpadOrResetChangesDlen :
    (∃ t, step (hosting [writeReg .dlen 1#32]) = .next t ∧ t.dlen ≠ (hosting []).dlen) ∧
    (∃ t, step { loaded [] [] with busy := true, pending := 4#32 } = .next t ∧ t.dlen ≠ (loaded [] []).dlen) :=
  ⟨⟨_, rfl, by decide⟩, ⟨_, rfl, by decide⟩⟩

theorem witness_BusyIsSetByCtrlAndClearedByCompletion :
    (∃ t, step (hosting [writeReg .ctrl 1#32]) = .next t ∧ (hosting []).busy = false ∧ t.busy = true) ∧
    (∃ t, step { loaded [] [] with busy := true, pending := 4#32 } = .next t ∧ t.busy = false) :=
  ⟨⟨_, rfl, by decide, by decide⟩, ⟨_, rfl, by decide⟩⟩

theorem witness_AssembledBranchesStayInTheProgram : wellFormedSource [.wait, .bnz 0 1#32 0, .halt] = true := by decide

theorem witness_IdleMachineKeepsItsState :
    State.reset.busy = false ∧ State.reset.nextHostOp = none ∧ ∀ r, State.reset.mover ≠ .edge r := by decide

theorem witness_ResetEdgeAbandonsTheCommand :
    ({ State.reset with busy := true, turns := [.edge true] } : State).mover = .edge true := by decide

theorem witness_CoreIsHeldWhileInReset :
    let s : State := { State.reset with rst := true, turns := [.host, .edge false] }
    s.rst = true ∧ (∀ r, s.mover ≠ .edge r) ∧ ({ s with turns := [.edge false] } : State).mover = .edge false := by decide

/-- A state with a command in progress meets the invariant, and a step leads on from it. -/
theorem witness_EveryStepKeepsTheInvariant :
    let s : State := { State.reset with busy := true, pending := 4#32 }
    s.Inv ∧ ∃ t, step s = .next t :=
  ⟨⟨by decide, fun _ => by decide, fun h => absurd h (by decide), fun h => absurd h (by decide)⟩, _, rfl⟩

theorem witness_EveryCommandTerminates :
    ({ State.reset with busy := true, pending := 4#32, turns := [.host, .host] } : State).Inv :=
  ⟨by decide, fun _ => by decide, fun h => absurd h (by decide), fun h => absurd h (by decide)⟩

theorem witness_MachineNeverStops : ({ State.reset with err := 5#3 } : State).Inv :=
  ⟨by decide, fun h => absurd h (by decide), fun h => absurd h (by decide), fun h => absurd h (by decide)⟩

theorem witness_FacadeDecryptUndoesEncrypt :
    State.reset.busy = false ∧ State.reset.rst = false ∧ (bytes 65 1 ≠ []) ∧ (bytes 65 1).length < 2 ^ 32 := by decide

theorem witness_FacadeReportsEmptyKeyAndInvalidLength :
    ([] : List Byte).length = 0 ∧ (bytes 21 0).length % bs .shacal1 ≠ 0 ∧
    (bytes 20 0).length ≠ 0 ∧ (bytes 20 0).length % bs .shacal1 = 0 ∧
    (bytes 64 0).length ≠ 0 ∧ (bytes 64 0).length % bs .shacal2 = 0 := by decide

end Sys2Proof.Tests
end

/-! ## Proofs: the packing of bytes into words (R12) -/

namespace Sys2Proof.Machine

/-- Settles O31: each conjunct is a law of byte packing, weights from `be32_toNat` and the two inverse laws. -/
theorem packingIsBigEndianAndInvertible : Obligations.PackingIsBigEndianAndInvertible := by
  unfold Obligations.PackingIsBigEndianAndInvertible
  constructor
  · intro b0 b1 b2 b3
    exact ⟨be32_toNat b0 b1 b2 b3, unbe32_be32 b0 b1 b2 b3⟩
  · exact be32_unbe32

end Sys2Proof.Machine

/-! ## Proofs: the state, its invariant, and who writes what (10_state.md) -/

namespace Sys2Proof.Machine

/-! ### The invariant (R21, R25, R28, R46, R125) -/

/-- Out of reset, nothing is asked of the registers' values. -/
theorem State.heldInReset_of_rst {s : State} (h : s.rst = false) : s.HeldInReset := by
  simp [State.HeldInReset, h]

/-- What an EXPAND stores is a genuine schedule of its variant, whatever was in `SCHED` before (R46, R75, R77). -/
theorem scheduleGenuine_storeSchedule {s : State} {sched : Vector Word 80} {key : Vector Byte 64} {keylen : Word}
    (h : s.sched = storeSchedule sched (expandedKey s.svar key keylen)) : s.ScheduleGenuine := by
  intro _
  have hword : ∀ i (hi : i < 80), i < rounds s.svar → s.sched[i] = wordAt (expandedKey s.svar key keylen) i := by
    intro i hi hr
    simp only [h]
    exact storeSchedule_getElem_lt _ _ i hi (by rwa [expandedKey_length])
  cases hv : s.svar with
  | shacal1 =>
    rw [hv] at hword
    simp only [rounds] at hword
    intro i hi
    simp only [Fin.getElem_fin]
    rw [hword _ _ i.isLt, hword _ _ (by omega), hword _ _ (by omega), hword _ _ (by omega), hword _ _ (by omega)]
    exact expandedKey_shacal1 hi i.isLt
  | shacal2 =>
    rw [hv] at hword
    simp only [rounds] at hword
    intro i hi hlt
    simp only [Fin.getElem_fin]
    rw [hword _ _ hlt, hword _ _ (by omega), hword _ _ (by omega), hword _ _ (by omega), hword _ _ (by omega)]
    exact expandedKey_shacal2 hi hlt

/-- The invariant says nothing of the host, the turns or the counter of free values. -/
theorem State.Inv.withHost {s : State} (hs : s.Inv) (h : HostAgent) (ts : List Turn) (n : Nat) :
    State.Inv { s with host := h, turns := ts, free := n } :=
  ⟨hs.errLegal, hs.pendingLegal, hs.heldInReset, hs.scheduleGenuine⟩

theorem State.Inv.popTurn {s : State} (hs : s.Inv) : s.popTurn.Inv :=
  hs.withHost s.host s.turns.tail s.free

/-- A reset edge gives a state that meets the invariant, from any state. -/
theorem State.inv_resetEdge (s : State) : State.Inv { s.resetCore with rst := true } where
  errLegal := by simp [State.ErrLegal]
  pendingLegal := by simp [State.PendingLegal]
  heldInReset := by simp [State.HeldInReset]
  scheduleGenuine := by simp [State.ScheduleGenuine]

/-- A write that is not ignored comes out of reset, and one that sets `BUSY` latches a legal word. -/
theorem WriteEffect.inv {s t : State} {a : WordAddr} {v : Word} (h : WriteEffect s a v t) (hs : s.Inv) : t.Inv := by
  cases h with
  | ignored => exact hs
  | starts hb hr ha hl => exact ⟨hs.errLegal, fun _ => hl, State.heldInReset_of_rst hr, hs.scheduleGenuine⟩
  | illegal hb hr => exact ⟨by simp [State.ErrLegal], hs.pendingLegal, State.heldInReset_of_rst hr, hs.scheduleGenuine⟩
  | keylen hb hr => exact ⟨hs.errLegal, hs.pendingLegal, State.heldInReset_of_rst hr, hs.scheduleGenuine⟩
  | dlen hb hr => exact ⟨hs.errLegal, hs.pendingLegal, State.heldInReset_of_rst hr, hs.scheduleGenuine⟩
  | keyw j hb hr => exact ⟨hs.errLegal, hs.pendingLegal, State.heldInReset_of_rst hr, hs.scheduleGenuine⟩
  | dataw j hb hr => exact ⟨hs.errLegal, hs.pendingLegal, State.heldInReset_of_rst hr, hs.scheduleGenuine⟩

/-- A command ends with a code of at most 4. -/
theorem CommandEffect.errLegal {i : Instr} {s t : State} (h : CommandEffect i s t) : t.ErrLegal := by
  cases h with
  | writesData d n => simp [State.ErrLegal]
  | expands => simp [State.ErrLegal]
  | emptyKey => simp [State.ErrLegal]
  | raises code ho hc => rcases hc with rfl | ⟨rfl, -⟩ | ⟨rfl, -⟩ <;> simp [State.ErrLegal]

/-- A command keeps a resident schedule, drops it, or stores a new one. -/
theorem CommandEffect.scheduleGenuine {i : Instr} {s t : State} (h : CommandEffect i s t) (hs : s.ScheduleGenuine) :
    t.ScheduleGenuine := by
  cases h with
  | writesData d n => exact hs
  | expands => exact scheduleGenuine_storeSchedule rfl
  | emptyKey => exact fun hv => by cases hv
  | raises code => exact hs

theorem CommandEffect.inv {i : Instr} {s t : State} (h : CommandEffect i s t) (hr : s.rst = false) (hs : s.Inv) :
    t.Inv where
  errLegal := h.errLegal
  pendingLegal := by simp [State.PendingLegal, h.busy_eq]
  heldInReset := State.heldInReset_of_rst (h.rst_eq.trans hr)
  scheduleGenuine := h.scheduleGenuine hs.scheduleGenuine

/-- Settles O51, by the cases of what a step can do: each agent's part keeps the invariant. -/
theorem everyStepKeepsTheInvariant : Obligations.EveryStepKeepsTheInvariant := by
  intro s t hs hstep
  cases step_effect hstep with
  | hostQuiet h n => exact hs.withHost h s.turns.tail n
  | hostWrite a v u h n hm hop hw => exact (hw.inv hs.popTurn).withHost h u.turns n
  | engineIdle => exact hs.popTurn
  | command i _ hm hb hr hd he => exact he.inv hr hs.popTurn
  | resetEdge => exact s.popTurn.inv_resetEdge
  | releaseEdge => exact ⟨hs.errLegal, hs.pendingLegal, State.heldInReset_of_rst rfl, hs.scheduleGenuine⟩

/-- Settles O50: after reset `ERR`, `BUSY`, `rst` and `SVALID` are all 0, so each clause is met at once. -/
theorem invariantHoldsAtReset : Obligations.InvariantHoldsAtReset where
  errLegal := by decide
  pendingLegal := fun hbusy => by cases hbusy
  heldInReset := State.heldInReset_of_rst rfl
  scheduleGenuine := fun hvalid => by cases hvalid

/-! ### STATUS and CTRL (R27, R28) -/

/-- The variant bit as a number is 1 for SHACAL2 alone. -/
theorem variantBit_toNat (v : Variant) : v.bit.toNat = if v = .shacal2 then 1 else 0 := by
  cases v <;> rfl

/-- Bit 7 of a `STATUS` word is reserved. -/
theorem statusWord_getLsbD_seven (b : Bool) (e : BitVec 3) (v : Bool) (r : BitVec 1) :
    (statusWord b e v r).getLsbD 7 = false := by
  revert b e v r; decide

/-- Settles O37: an idle core shows its own fields, a busy one a `STATUS` word with free fields. -/
theorem statusReadsItsFields : Obligations.StatusReadsItsFields := by
  intro s hr
  have hstatus : memRead s HostReg.status.addr = s.readStatus := memRead_reg _ .status hr
  rw [hstatus]
  constructor
  · intro hb
    have hread : s.readStatus = statusWord false s.err s.svalid s.svar.bit := by simp [State.readStatus, hb]
    simp [hread, statusWord_toNat, variantBit_toNat]
  · intro hb
    obtain ⟨e, v, r, hread⟩ := readStatus_shape s
    have hlow : (statusWord true e v r).toNat % 2 ^ 4 = 1 := by
      rw [statusWord_toNat, Bool.toNat_true]
      omega
    rw [hread, hb]
    exact ⟨hlow, statusWord_getLsbD_seven true e v r, statusWord_lt true e v r⟩

/-- Settles O35: the write by the laws of the window, and a temporary that a read of `CTRL` sets to 0. -/
theorem ctrlWriteStartsALegalCommand : Obligations.CtrlWriteStartsALegalCommand := by
  intro s v hr
  have hread : memRead s HostReg.ctrl.addr = 0#32 := memRead_reg _ .ctrl hr
  have hwrite (hb : s.busy = false) : memWrite s HostReg.ctrl.addr v = s.writeCtrl v := memWrite_reg _ .ctrl v hr hb
  refine ⟨memWrite_busy _ _ _, fun hb hl => ?_, fun hb hl => ?_, hread, fun k => ⟨_, ?_, rfl⟩⟩
  · rw [hwrite hb, writeCtrl_legal hl]
  · rw [hwrite hb, writeCtrl_illegal hl]
  · simp [hread]

/-! ### Who writes what -/

section
variable {s t : State} {a : WordAddr} {v : Word} (h : WriteEffect s a v t)
include h

theorem WriteEffect.of_key_ne (hne : t.key ≠ s.key ∨ t.keylen ≠ s.keylen) :
    s.busy = false ∧ (a = HostReg.keylen.addr ∨ ∃ j, a = (HostReg.keyw j).addr) := by
  cases h with
  | keylen hb hr ha => exact ⟨hb, .inl ha⟩
  | keyw j hb hr ha => exact ⟨hb, .inr ⟨j, ha⟩⟩
  | _ => simp at hne

theorem WriteEffect.of_dlen_ne (hne : t.dlen ≠ s.dlen) : s.busy = false ∧ a = HostReg.dlen.addr := by
  cases h with
  | dlen hb hr ha => exact ⟨hb, ha⟩
  | _ => simp at hne

/-- A write that sets `BUSY` latches a legal word (R27). -/
theorem WriteEffect.of_busy_set (hs : s.busy = false) (ht : t.busy = true) :
    a = HostReg.ctrl.addr ∧ legalWord v = true ∧ t.pending = v := by
  cases h with
  | starts hb hr ha hl => exact ⟨ha, hl, rfl⟩
  | _ => simp [hs] at ht

/-- A write never clears `BUSY`. -/
theorem WriteEffect.busy_kept (hs : s.busy = true) : t.busy = true := by
  cases h with
  | starts => rfl
  | _ => exact hs

end

section
variable {i : Instr} {s t : State} (h : CommandEffect i s t)
include h

theorem CommandEffect.of_sched_ne (hne : t.sched ≠ s.sched ∨ t.svalid ≠ s.svalid ∨ t.svar ≠ s.svar) :
    i.op = .expand := by
  cases h with
  | expands hop => exact hop
  | emptyKey hop => exact hop
  | _ => simp at hne

theorem CommandEffect.of_dlen_ne (hne : t.dlen ≠ s.dlen) : t.err = 0#3 ∧ (i.op = .pad ∨ i.op = .unpad) := by
  cases h with
  | writesData d n hop hpad => exact ⟨rfl, hpad hne⟩
  | _ => simp at hne

end

/-- The commands of the operation `EXPAND` (R58). -/
theorem eq_expand_of_op {i : Instr} (h : i.op = .expand) : i = .expandS1 ∨ i = .expandS2 := by
  cases i <;> simp [Instr.op] at h ⊢

/-- Settles O40: of what a step can do, only a host write and a reset edge touch `KEY` or `KEYLEN`. -/
theorem onlyTheHostOrResetChangesTheKey : Obligations.OnlyTheHostOrResetChangesTheKey := by
  intro s t hstep hne
  cases step_effect hstep with
  | hostWrite a v u h n hm hop hw =>
    obtain ⟨hb, ha⟩ := hw.of_key_ne hne
    exact .inr ⟨hm, hb, a, v, hop, ha⟩
  | command i _ hm hb hr hd he => simp [he.key_eq, he.keylen_eq] at hne
  | resetEdge hm => exact .inl hm
  | _ => simp at hne

/-- Settles O41: of what a step can do, only an EXPAND and a reset edge touch the schedule. -/
theorem onlyExpandOrResetChangesTheSchedule : Obligations.OnlyExpandOrResetChangesTheSchedule := by
  intro s t hstep hne
  cases step_effect hstep with
  | hostWrite a v u h n hm hop hw => simp [hw.sched_eq, hw.svalid_eq, hw.svar_eq] at hne
  | command i _ hm hb hr hd he =>
    refine .inr ⟨hm, hb, ?_⟩
    rcases eq_expand_of_op (he.of_sched_ne hne) with rfl | rfl
    · exact .inl hd
    · exact .inr hd
  | resetEdge hm => exact .inl hm
  | _ => simp at hne

/-- Settles O42: only a host write, a PAD or UNPAD without error, and a reset edge touch `DLEN`. -/
theorem onlyHostPadUnpadOrResetChangesDlen : Obligations.OnlyHostPadUnpadOrResetChangesDlen := by
  intro s t hstep hne
  cases step_effect hstep with
  | hostWrite a v u h n hm hop hw =>
    obtain ⟨hb, rfl⟩ := hw.of_dlen_ne hne
    exact .inr (.inl ⟨hm, hb, v, hop⟩)
  | command i _ hm hb hr hd he =>
    obtain ⟨herr, hop⟩ := he.of_dlen_ne hne
    exact .inr (.inr ⟨hm, hb, herr, i, hd, hop⟩)
  | resetEdge hm => exact .inl hm
  | _ => simp at hne

/-- Settles O43: a host write alone sets `BUSY` and never clears it; of the rest, only the engine and a reset edge touch
it, and they clear it. -/
theorem busyIsSetByCtrlAndClearedByCompletion : Obligations.BusyIsSetByCtrlAndClearedByCompletion := by
  intro s t hstep
  cases step_effect hstep with
  | hostWrite a v u h n hm hop hw =>
    constructor
    · intro hs ht
      obtain ⟨rfl, hl, hp⟩ := hw.of_busy_set hs ht
      exact ⟨hm, v, hop, hl, hp⟩
    · intro hs ht
      simp [hw.busy_kept hs] at ht
  | command i _ hm hb hr hd he => exact ⟨fun hs => by simp [hs] at hb, fun _ _ => .inl hm⟩
  | resetEdge hm => exact ⟨fun _ ht => by simp at ht, fun _ _ => .inr hm⟩
  | _ => exact ⟨fun hs ht => by simp [hs] at ht, fun hs ht => by simp [hs] at ht⟩

/-! ### Placing a command (log entry 5) -/

/-- The decoder reads a command back from its encoding (R52 to R54). -/
theorem decode_encode (i : Instr) : decode (encode i) = .ok i := by
  cases i <;> rfl

/-- A word numbered as a 32-bit table word is itself. -/
@[simp] theorem tableWord_toNat (w : Word) : tableWord 32 w.toNat = w := by
  rw [tableWord, Nat.mod_eq_of_lt w.isLt, BitVec.ofNat_toNat, BitVec.setWidth_eq]

/-- Where the engine moves, the step is its turn. -/
theorem step_of_engine {s : State} (h : s.mover = .engine) : step s = s.popTurn.engineTurn := by
  simp [step, h]

/-- Settles O6: the engine has the next turn, and runs the command that the encoding decodes to. -/
theorem placedCommandIsRunByTheNextStep : Obligations.PlacedCommandIsRunByTheNextStep := by
  intro s i
  have hpop : (s.withFetchWord 32 (encode i).toNat).popTurn =
      { s with pending := encode i, busy := true, rst := false } := by
    simp [State.popTurn, State.withFetchWord]
  rw [step_of_engine (s.mover_withFetchWord _ _), hpop]
  exact engineTurn_ok rfl rfl (decode_encode i)

/-! ### The reset values (R32) -/

/-- Settles O47: the flags and lengths are 0 as written, and every byte of a buffer is that of the replicated 0. -/
theorem resetStateHasTheValuesOfTheTable : Obligations.ResetStateHasTheValuesOfTheTable := by
  refine ⟨rfl, rfl, rfl, rfl, rfl, rfl, fun i => ?_, fun i => ?_⟩ <;> simp [State.reset]

end Sys2Proof.Machine

/-! ## Proofs: the register window (20_memory.md) -/

namespace Sys2Proof.Machine

/-! ### The register map (R35) -/

/-- A word address is a register's exactly when it is that register's address (R30). -/
theorem regAt_eq_some_iff (a : WordAddr) (r : HostReg) : regAt a = some r ↔ r.addr = a :=
  ⟨addr_of_regAt, fun h => h ▸ regAt_addr r⟩

/-- A word address given as a number below 1024 stands at four times that number. -/
theorem byteOffset_ofNat {n : Nat} (h : n < 2 ^ 10) : byteOffset (BitVec.ofNat 10 n) = 4 * n := by
  rw [byteOffset, BitVec.toNat_ofNat, Nat.mod_eq_of_lt h]

theorem byteOffset_keyw (j : Fin 16) : byteOffset (HostReg.keyw j).addr = 0x040 + 4 * j.val := by
  rw [HostReg.addr, byteOffset_ofNat (by omega)]
  omega

theorem byteOffset_dataw (j : Fin 8) : byteOffset (HostReg.dataw j).addr = 0x080 + 4 * j.val := by
  rw [HostReg.addr, byteOffset_ofNat (by omega)]
  omega

theorem byteOffset_schedw (i : Fin 80) : byteOffset (HostReg.schedw i).addr = 0x100 + 4 * i.val := by
  rw [HostReg.addr, byteOffset_ofNat (by omega)]
  omega

/-- Settles O32: the single registers by computation, the three files by their index, and no aliases because `regAt`
inverts `HostReg.addr`. -/
theorem registerMapHasTheOffsetsOfTheTable : Obligations.RegisterMapHasTheOffsetsOfTheTable :=
  ⟨rfl, rfl, rfl, rfl, byteOffset_keyw, byteOffset_dataw, byteOffset_schedw, regAt_eq_some_iff⟩

/-! ### Reads and writes of an idle core, register by register (R36, R40) -/

section
variable {s : State} (hr : s.rst = false) (hb : s.busy = false) (v : Word)
include hr hb

theorem memRead_keylen : memRead s HostReg.keylen.addr = s.keylen :=
  (memRead_reg s .keylen hr).trans (shown_idle hb _)

theorem memRead_dlen : memRead s HostReg.dlen.addr = s.dlen :=
  (memRead_reg s .dlen hr).trans (shown_idle hb _)

theorem memRead_keyw (j : Fin 16) : memRead s (HostReg.keyw j).addr = getWord s.key j :=
  (memRead_reg s (.keyw j) hr).trans (shown_idle hb _)

theorem memRead_dataw (j : Fin 8) : memRead s (HostReg.dataw j).addr = getWord s.data j :=
  (memRead_reg s (.dataw j) hr).trans (shown_idle hb _)

theorem memRead_schedw (i : Fin 80) : memRead s (HostReg.schedw i).addr = s.sched[i] :=
  (memRead_reg s (.schedw i) hr).trans (shown_idle hb _)

theorem memWrite_keylen : memWrite s HostReg.keylen.addr v = { s with keylen := v } :=
  memWrite_reg s .keylen v hr hb

theorem memWrite_dlen : memWrite s HostReg.dlen.addr v = { s with dlen := v } :=
  memWrite_reg s .dlen v hr hb

theorem memWrite_keyw (j : Fin 16) :
    memWrite s (HostReg.keyw j).addr v = { s with key := putWord s.key j v } :=
  memWrite_reg s (.keyw j) v hr hb

theorem memWrite_dataw (j : Fin 8) :
    memWrite s (HostReg.dataw j).addr v = { s with data := putWord s.data j v } :=
  memWrite_reg s (.dataw j) v hr hb

/-- A write of any register but `CTRL` leaves what every other register reads as (R42). -/
theorem memRead_memWrite_reg_ne {r r' : HostReg} (hctrl : r ≠ .ctrl) (hne : r' ≠ r) :
    memRead (memWrite s r.addr v) r'.addr = memRead s r'.addr := by
  have hr' : (memWrite s r.addr v).rst = false := (memWrite_effect s r.addr v).rst_eq.trans hr
  rw [memRead_reg _ _ hr', memRead_reg _ _ hr, memWrite_reg _ _ _ hr hb]
  cases r with
  | ctrl => exact absurd rfl hctrl
  | status => rfl
  | schedw i => rfl
  | keylen =>
    cases r' with
    | keylen => exact absurd rfl hne
    | _ => rfl
  | dlen =>
    cases r' with
    | dlen => exact absurd rfl hne
    | _ => rfl
  | keyw j =>
    cases r' with
    | keyw k =>
      have hkj : k.val ≠ j.val := fun h => hne (congrArg HostReg.keyw (Fin.ext h))
      exact congrArg s.shown (getWord_putWord_ne s.key j k v (by omega) (by omega) hkj)
    | _ => rfl
  | dataw j =>
    cases r' with
    | dataw k =>
      have hkj : k.val ≠ j.val := fun h => hne (congrArg HostReg.dataw (Fin.ext h))
      exact congrArg s.shown (getWord_putWord_ne s.data j k v (by omega) (by omega) hkj)
    | _ => rfl

/-- A write of any register but `CTRL` leaves what every other offset of the window reads as, reserved ones too. -/
theorem memRead_memWrite_ne {r : HostReg} (hctrl : r ≠ .ctrl) {a : WordAddr} (hne : a ≠ r.addr) :
    memRead (memWrite s r.addr v) a = memRead s a := by
  cases ha : regAt a with
  | none =>
    have hr' : (memWrite s r.addr v).rst = false := (memWrite_effect s r.addr v).rst_eq.trans hr
    rw [memRead_reserved _ a hr' ha, memRead_reserved _ a hr ha]
  | some r' =>
    obtain rfl := addr_of_regAt ha
    exact memRead_memWrite_reg_ne hr hb v hctrl fun h => hne (congrArg HostReg.addr h)

end

/-- Settles O33: read back by the laws of each writable register, the rest by the frame of a register write. -/
theorem writtenRegisterReadsBackAndOthersStay : Obligations.WrittenRegisterReadsBackAndOthersStay := by
  intro s r v hb hr hwritable
  refine ⟨?_, fun a hne => memRead_memWrite_ne hr hb v (by rintro rfl; simp at hwritable) hne⟩
  rcases hwritable with rfl | rfl | ⟨j, rfl⟩ | ⟨j, rfl⟩
  · rw [memWrite_keylen hr hb]
    exact memRead_keylen hr hb
  · rw [memWrite_dlen hr hb]
    exact memRead_dlen hr hb
  · rw [memWrite_keyw hr hb, memRead_keyw (s := { s with key := putWord s.key j v }) hr hb]
    exact getWord_putWord_same s.key j v (by omega)
  · rw [memWrite_dataw hr hb, memRead_dataw (s := { s with data := putWord s.data j v }) hr hb]
    exact getWord_putWord_same s.data j v (by omega)

/-- Settles O34: an idle read shows the word of the buffer, and a write puts its four bytes there and nowhere else. -/
theorem buffersArePackedBigEndianInTheWindow : Obligations.BuffersArePackedBigEndianInTheWindow := by
  intro s hb hr
  refine ⟨memRead_keyw hr hb, memRead_dataw hr hb, memRead_schedw hr hb, fun j v => ?_, fun j v => ?_⟩
  · exact ⟨_, memWrite_keyw hr hb v j, fun i => putWord_getElem s.key j v (by omega) i i.isLt⟩
  · exact ⟨_, memWrite_dataw hr hb v j, fun i => putWord_getElem s.data j v (by omega) i i.isLt⟩

/-! ### Reserved offsets and read-only registers (R38) -/

/-- A write to `STATUS` is ignored in every state. -/
theorem memWrite_status (s : State) (v : Word) : memWrite s HostReg.status.addr v = s := by
  simp only [memWrite, regAt_addr]
  split_ifs <;> rfl

/-- A write to `SCHEDW` is ignored in every state. -/
theorem memWrite_schedw (s : State) (i : Fin 80) (v : Word) : memWrite s (HostReg.schedw i).addr v = s := by
  simp only [memWrite, regAt_addr]
  split_ifs <;> rfl

/-- The reserved bits of a `STATUS` word are 0 (R28): those between its fields, and those above them all. -/
theorem statusWord_getLsbD_reserved (b : Bool) (e : BitVec 3) (v : Bool) (r : BitVec 1) {n : Nat}
    (h : n ∈ [1, 2, 3, 7] ∨ 10 ≤ n) : (statusWord b e v r).getLsbD n = false := by
  rcases h with hbetween | habove
  · revert b e v r
    revert n
    decide
  · have hpow : 2 ^ 10 ≤ 2 ^ n := Nat.pow_le_pow_right (by decide) habove
    exact Nat.testBit_lt_two_pow ((statusWord_lt b e v r).trans_le hpow)

/-- Settles O36: a write there is ignored in every state, and a `STATUS` read is a `STATUS` word, busy or not. -/
theorem reservedSpaceAndReadOnlyRegisters : Obligations.ReservedSpaceAndReadOnlyRegisters := by
  intro s a v hr
  have hstatus : memRead s HostReg.status.addr = s.readStatus := memRead_reg _ .status hr
  refine ⟨fun ha => ⟨memRead_reserved s a hr ha, memWrite_reserved s a v ha⟩, memWrite_status s v,
    fun i => memWrite_schedw s i v, memRead_reg s .ctrl hr,
    fun hb => ⟨memWrite_keylen hr hb v, memWrite_dlen hr hb v⟩, fun n hn => ?_⟩
  obtain ⟨e, sv, r, hread⟩ := readStatus_shape s
  rw [hstatus, hread]
  exact statusWord_getLsbD_reserved _ e sv r hn

/-! ### The host while a command is in progress (R39) -/

/-- Where the host moves, the step is its turn. -/
theorem step_of_host {s : State} (h : s.mover = .host) : step s = .next s.popTurn.hostTurn := by
  simp [step, h]

/-- Settles O38: while `BUSY = 1` every write is ignored, so the host's turn leaves the core alone. -/
theorem hostTurnWhileBusyLeavesTheCoreAlone : Obligations.HostTurnWhileBusyLeavesTheCoreAlone := by
  intro s hb hm
  obtain ⟨h, n, hturn⟩ := hostTurn_held s.popTurn fun a v => memWrite_busy _ a v hb
  exact ⟨h, n, by rw [step_of_host hm, hturn]; rfl⟩

end Sys2Proof.Machine

/-! ## Proofs: the encoding of commands and host programs (30_encoding.md) -/

namespace Sys2Proof.Machine

/-! ### The decoder inverts the encoder (R52 to R58) -/

/-- A command word is its three fields `RSV`, `V` and `OP` in order (R52). -/
theorem fields_append (w : Word) : reservedField w ++ BitVec.ofBool (variantBit w) ++ opField w = w := by
  refine BitVec.eq_of_getLsbD_eq fun j hj => ?_
  simp only [BitVec.getLsbD_append, BitVec.getLsbD_ofBool, reservedField, variantBit, opField,
    BitVec.getLsbD_extractLsb']
  by_cases hop : j < 4
  · simp [hop]
  · by_cases hv : j = 4
    · simp [hv]
    · have hrsv : 5 + (j - 4 - 1) = j := by omega
      simp [hop, hrsv, show ¬j - 4 < 1 by omega, show j - 4 - 1 < 27 by omega]

/-- A value of `OP` names an operation exactly when it is that operation's code (R53). -/
theorem opOfField_eq_some_iff (c : BitVec 4) (op : Op) : opOfField c = some op ↔ c = op.code := by
  revert c
  cases op <;> decide

/-- The variant of a `V` bit is encoded by that bit (R54). -/
theorem bit_variantOfBit (b : Bool) : (variantOfBit b).bit = BitVec.ofBool b := by
  cases b <;> rfl

/-- What the decoder reads from a word says what each of its fields is. -/
theorem fields_of_decode {w : Word} {i : Instr} (h : decode w = .ok i) :
    reservedField w = 0#27 ∧ BitVec.ofBool (variantBit w) = i.variant.bit ∧ opField w = i.op.code := by
  simp only [decode] at h
  split at h
  next hrsv =>
    split at h
    next op hop =>
      cases h
      rw [variant_instrOf, op_instrOf]
      exact ⟨hrsv, (bit_variantOfBit _).symm, (opOfField_eq_some_iff _ _).mp hop⟩
    next => cases h
  next => cases h

/-- Each command is read from its encoding and from no other word (R58). -/
theorem decode_eq_ok_iff (w : Word) (i : Instr) : decode w = .ok i ↔ w = encode i := by
  constructor
  · intro h
    obtain ⟨hrsv, hv, hop⟩ := fields_of_decode h
    rw [← fields_append w, hrsv, hv, hop, encode]
  · rintro rfl
    exact decode_encode i

/-- Settles O1: the word of each row is the encoding of its command. -/
theorem decoderReadsExactlyTheTenWords : Obligations.DecoderReadsExactlyTheTenWords := by
  intro w
  exact ⟨decode_eq_ok_iff w .expandS1, decode_eq_ok_iff w .encS1, decode_eq_ok_iff w .decS1,
    decode_eq_ok_iff w .padS1, decode_eq_ok_iff w .unpadS1, decode_eq_ok_iff w .expandS2,
    decode_eq_ok_iff w .encS2, decode_eq_ok_iff w .decS2, decode_eq_ok_iff w .padS2, decode_eq_ok_iff w .unpadS2⟩

/-- Settles O3: it holds of every command, and every command is well formed. -/
theorem decodeOfEncodeGivesTheCommandBack : Obligations.DecodeOfEncodeGivesTheCommandBack :=
  fun i _ => decode_encode i

/-- Settles O4: four words are encodings of their commands, and the decoder rejects the other two by computation. -/
theorem wordsWrittenOutDecodeAsTheTableSays : Obligations.WordsWrittenOutDecodeAsTheTableSays :=
  ⟨decode_encode .expandS1, decode_encode .decS2, decode_encode .padS1, decode_encode .unpadS2, rfl, rfl⟩

/-! ### Legal words (R55) -/

theorem legalWord_iff_exists_encode (w : Word) : legalWord w = true ↔ ∃ i, w = encode i := by
  constructor
  · intro h
    obtain ⟨i, hi⟩ := decode_of_legalWord h
    exact ⟨i, (decode_eq_ok_iff w i).mp hi⟩
  · rintro ⟨i, rfl⟩
    exact legalWord_of_decode (decode_encode i)

/-- The legal words are the ten numbers of the table (R55, R58). -/
theorem legalWord_iff_toNat_mem (w : Word) :
    legalWord w = true ↔ w.toNat ∈ [0x01, 0x02, 0x03, 0x04, 0x05, 0x11, 0x12, 0x13, 0x14, 0x15] := by
  constructor
  · intro h
    obtain ⟨i, rfl⟩ := (legalWord_iff_exists_encode w).mp h
    cases i <;> decide
  · intro h
    have htable : ∀ n ∈ [0x01, 0x02, 0x03, 0x04, 0x05, 0x11, 0x12, 0x13, 0x14, 0x15],
        legalWord (BitVec.ofNat 32 n) = true := by decide
    simpa using htable w.toNat h

/-- Settles O2: the bounds on the two fields leave the ten numbers of the table, and an illegal word goes to `ERR`. -/
theorem legalWordsAndTheFateOfIllegalOnes : Obligations.LegalWordsAndTheFateOfIllegalOnes := by
  refine ⟨fun w => ?_, legalWord_iff_toNat_mem, fun s w hb hr hl => ?_⟩
  · rw [legalWord_iff_toNat_mem]
    simp only [List.mem_cons, List.not_mem_nil, or_false]
    omega
  · exact (memWrite_reg s .ctrl w hr hb).trans (writeCtrl_illegal hl)

/-! ### Assembled host programs (R62) -/

/-- Every source line expands to an operation at least. -/
theorem HostLine.size_pos (l : HostLine) : 0 < l.size := by
  cases l <;> exact Nat.succ_pos _

theorem HostLine.length_expand (l : HostLine) (lines : List HostLine) (start : Nat) :
    (l.expand lines start).length = l.size := by
  cases l <;> rfl

/-- The source line after line `k` starts where the expansion of line `k` ends. -/
theorem lineOf_succ {lines : List HostLine} {k : Nat} (h : k < lines.length) :
    lineOf lines (k + 1) = lineOf lines k + lines[k].size := by
  simp only [lineOf, List.take_succ_eq_append_getElem h, List.map_append, List.map_cons, List.map_nil,
    List.sum_append, List.sum_singleton]

/-- The assembled program ends where the line after the last source line would start. -/
theorem length_assemble (lines : List HostLine) : (assemble lines).length = lineOf lines lines.length := by
  have hsizes : lines.zipIdx.map (fun p => (p.1.expand lines (lineOf lines p.2)).length) =
      lines.map HostLine.size := by
    simp only [HostLine.length_expand]
    rw [← Function.comp_def HostLine.size Prod.fst, ← List.map_map, List.zipIdx_map_fst]
  rw [assemble, List.length_flatten, List.map_map, Function.comp_def, hsizes, lineOf, List.take_length]

/-- The expansion of a source line ends inside the assembled program. -/
theorem lineOf_add_size_le {lines : List HostLine} {k : Nat} (h : k < lines.length) :
    lineOf lines k + lines[k].size ≤ (assemble lines).length := by
  rw [← lineOf_succ h, length_assemble]
  have hle (n : Nat) (hn : n ≤ lines.length) : lineOf lines n ≤ lineOf lines lines.length := by
    induction hn using Nat.decreasingInduction with
    | self => exact le_rfl
    | of_succ k hk ih => exact le_trans (by rw [lineOf_succ hk]; omega) ih
  exact hle _ h

/-- A label of the source program is mapped to a line of the assembled program. -/
theorem lineOf_lt_length {lines : List HostLine} {k : Nat} (h : k < lines.length) :
    lineOf lines k < (assemble lines).length := by
  have hpos := lines[k].size_pos
  have hend := lineOf_add_size_le h
  omega

/-- The operations that a load of a buffer expands to are writes, so well formed. -/
theorem HostOp.wellFormed_of_mem_writes {n : Nat} {ws : List (WordAddr × Word)} :
    ∀ op ∈ ws.map (fun w => HostOp.wr w.1 w.2), op.wellFormed n = true := by
  intro op hop
  obtain ⟨w, -, rfl⟩ := List.mem_map.mp hop
  rfl

/-- The operations of a `WAIT` at a line of the program are well formed: its branch goes to that line. -/
theorem waitOps_wellFormed {line n : Nat} (h : line < n) : ∀ op ∈ waitOps line, op.wellFormed n = true := by
  simp [waitOps, HostOp.wellFormed, h]

/-- The only branches of an expansion are that of a `BNZ`, to a label, and that of a `WAIT`, back into the expansion. -/
theorem HostLine.expand_wellFormed {l : HostLine} {lines : List HostLine} {start n : Nat}
    (hl : l.wellFormed lines.length = true) (hlabel : ∀ k < lines.length, lineOf lines k < n)
    (hend : start + l.size ≤ n) : ∀ op ∈ l.expand lines start, op.wellFormed n = true := by
  cases l with
  | bnz k mask label =>
    simp only [HostLine.wellFormed, decide_eq_true_eq] at hl
    simpa [HostLine.expand, HostOp.wellFormed] using hlabel label hl
  | wait =>
    simp only [HostLine.size] at hend
    exact waitOps_wellFormed (by omega)
  | run i =>
    simp only [HostLine.size] at hend
    exact List.forall_mem_cons.mpr ⟨rfl, waitOps_wellFormed (by omega)⟩
  | ldkey bytes => exact HostOp.wellFormed_of_mem_writes
  | lddata bytes => exact HostOp.wellFormed_of_mem_writes
  | _ => simp [HostLine.expand, commandOp, writeReg, HostOp.wellFormed]

/-- Settles O45: each operation stands in the expansion of one source line, which ends inside the program. -/
theorem assembledBranchesStayInTheProgram : Obligations.AssembledBranchesStayInTheProgram := by
  intro lines hlines
  refine List.all_eq_true.mpr fun op hop => ?_
  obtain ⟨ops, hops, hop⟩ := List.mem_flatten.mp hop
  obtain ⟨⟨l, k⟩, hlk, rfl⟩ := List.mem_map.mp hops
  obtain ⟨hk, rfl⟩ := List.getElem?_eq_some_iff.mp (List.mk_mem_zipIdx_iff_getElem?.mp hlk)
  have hl := List.all_eq_true.mp hlines _ (List.getElem_mem hk)
  exact HostLine.expand_wellFormed hl (fun _ => lineOf_lt_length) (lineOf_add_size_le hk) op hop

/-! ### The operations of a host program (R62) -/

/-- The `ERR` field of a word as a number is its bits 6:4 (R28). -/
theorem errField_toNat (w : Word) : (errField w).toNat = w.toNat / 2 ^ 4 % 2 ^ 3 := by
  rw [errField, BitVec.extractLsb'_toNat, Nat.shiftRight_eq_div_pow]

/-- A host write moves the host on and leaves the rest of it alone, whatever the window does with the write. -/
theorem hostOp_wr (s : State) (a : WordAddr) (v : Word) : s.hostOp (.wr a v) =
    { memWrite s a v with host := { s.host with line := s.host.line + 1 } } := by
  rw [← (memWrite_effect s a v).host_eq]
  rfl

theorem hostOp_bnz (s : State) (k : Fin 16) (mask : Word) (l : Nat) : s.hostOp (.bnz k mask l) =
    { s with host := { s.host with line := if s.host.temps[k] &&& mask = 0#32 then s.host.line + 1 else l } } := by
  simp only [State.hostOp, ne_eq, ite_not]
  split_ifs <;> rfl

theorem hostOp_check (s : State) (code : BitVec 3) : s.hostOp (.check code) =
    if s.host.temps[14].toNat / 2 ^ 4 % 2 ^ 3 = code.toNat
    then { s with host := { s.host with line := s.host.line + 1 } }
    else { s with host := { s.host with status := .checkFailed } } := by
  simp only [State.hostOp, ← errField_toNat, BitVec.toNat_inj, ne_eq, ite_not]
  rfl

/-- Settles O44: one law for each operation. -/
theorem hostOperationsDoWhatTheSyntaxSays : Obligations.HostOperationsDoWhatTheSyntaxSays := by
  intro s
  exact ⟨fun a v => ⟨_, rfl, hostOp_wr s a v⟩, fun k a => rfl, hostOp_bnz s, hostOp_check s, rfl⟩

end Sys2Proof.Machine

/-! ## Proofs: the padding codec (40_padding.md) -/

namespace Sys2Proof.Machine

/-! ### What PAD and UNPAD answer, by their operands (R65 to R68) -/

section
variable {s : State} {v : Variant}

theorem exec_pad_of_lt (h : s.dlen.toNat < bs v) : exec (instrOf .pad v) s = .next { s with
    data := padFill s.data s.dlen.toNat (bs v), dlen := BitVec.ofNat 32 (bs v), err := 0#3, busy := false } :=
  (exec_pad v s).trans (runPad_of_partial ((hasPartialBlock_iff s v).mpr h))

theorem exec_pad_of_ge (h : bs v ≤ s.dlen.toNat) :
    exec (instrOf .pad v) s = .next { s with err := 2#3, busy := false } :=
  (exec_pad v s).trans (runPad_of_full fun hp => Nat.not_lt.mpr h ((hasPartialBlock_iff s v).mp hp))

theorem exec_unpad_of_badLength (h : s.dlen ≠ BitVec.ofNat 32 (bs v)) :
    exec (instrOf .unpad v) s = .next { s with err := 2#3, busy := false } :=
  (exec_unpad v s).trans (runUnpad_of_badLength fun hb => h ((hasBlock_iff s v).mp hb))

theorem exec_unpad_of_valid (h : s.dlen = BitVec.ofNat 32 (bs v)) (hp : PaddingValid s.data v) :
    exec (instrOf .unpad v) s = .next { s with
      dlen := BitVec.ofNat 32 (bs v - (lastByte s.data v).toNat), err := 0#3, busy := false } :=
  (exec_unpad v s).trans (runUnpad_of_valid ((hasBlock_iff s v).mpr h) hp)

theorem exec_unpad_of_invalid (h : s.dlen = BitVec.ofNat 32 (bs v)) (hp : ¬PaddingValid s.data v) :
    exec (instrOf .unpad v) s = .next { s with err := 3#3, busy := false } :=
  (exec_unpad v s).trans (runUnpad_of_invalid ((hasBlock_iff s v).mpr h) hp)

end

/-- `DLEN` is a block's length as a word exactly when it is so as a number. -/
theorem dlen_eq_ofNat_bs {s : State} {v : Variant} (h : s.dlen.toNat = bs v) : s.dlen = BitVec.ofNat 32 (bs v) :=
  (hasBlock_iff s v).mp ((hasBlock_iff_toNat s v).mpr h)

theorem padFill_getElem (data : Vector Byte 32) (start n : Nat) (i : Fin 32) :
    (padFill data start n)[i] = if start ≤ i.val ∧ i.val < n then BitVec.ofNat 8 (n - start) else data[i] := by
  simp [padFill]

theorem paddingValid_shacal1_iff (data : Vector Byte 32) : PaddingValid data .shacal1 ↔
    1 ≤ data[19].toNat ∧ data[19].toNat ≤ 20 ∧
      ∀ i : Fin 32, 20 - data[19].toNat ≤ i.val → i.val < 20 → data[i] = data[19] :=
  and_congr_left fun _ => Nat.one_le_iff_ne_zero.symm

/-- The block of SHACAL2 is the whole buffer, so no index lies past it. -/
theorem paddingValid_shacal2_iff (data : Vector Byte 32) : PaddingValid data .shacal2 ↔
    1 ≤ data[31].toNat ∧ data[31].toNat ≤ 32 ∧
      ∀ i : Fin 32, 32 - data[31].toNat ≤ i.val → data[i] = data[31] :=
  and_congr Nat.one_le_iff_ne_zero.symm
    (and_congr_right fun _ => forall_congr' fun i => forall_congr' fun _ => forall_prop_of_true i.isLt)

/-- Settles O7: the answers of PAD at the block size of SHACAL1. -/
theorem padS1FillsThePartialBlock : Obligations.PadS1FillsThePartialBlock :=
  ⟨decode_encode .padS1, fun _ =>
    ⟨fun h => ⟨_, exec_pad_of_lt (v := .shacal1) h, padFill_getElem _ _ 20⟩, exec_pad_of_ge (v := .shacal1)⟩⟩

/-- Settles O8: the answers of PAD at the block size of SHACAL2, whose block is the whole buffer. -/
theorem padS2FillsThePartialBlock : Obligations.PadS2FillsThePartialBlock := by
  refine ⟨decode_encode .padS2, fun s =>
    ⟨fun h => ⟨_, exec_pad_of_lt (v := .shacal2) h, fun i => ?_⟩, exec_pad_of_ge (v := .shacal2)⟩⟩
  rw [padFill_getElem]
  simp only [bs, i.isLt, and_true]

/-- Settles O9: the answers of UNPAD at the block size of SHACAL1. -/
theorem unpadS1StripsValidPadding : Obligations.UnpadS1StripsValidPadding :=
  ⟨decode_encode .unpadS1, fun s => ⟨exec_unpad_of_badLength (v := .shacal1),
    fun h hp => exec_unpad_of_valid (v := .shacal1) h ((paddingValid_shacal1_iff s.data).mpr hp),
    fun h hp => exec_unpad_of_invalid (v := .shacal1) h (mt (paddingValid_shacal1_iff s.data).mp hp)⟩⟩

/-- Settles O10: the answers of UNPAD at the block size of SHACAL2. -/
theorem unpadS2StripsValidPadding : Obligations.UnpadS2StripsValidPadding :=
  ⟨decode_encode .unpadS2, fun s => ⟨exec_unpad_of_badLength (v := .shacal2),
    fun h hp => exec_unpad_of_valid (v := .shacal2) h ((paddingValid_shacal2_iff s.data).mpr hp),
    fun h hp => exec_unpad_of_invalid (v := .shacal2) h (mt (paddingValid_shacal2_iff s.data).mp hp)⟩⟩

/-! ### A tampered last byte (R71) -/

theorem bs_sub_one_lt (v : Variant) : bs v - 1 < 32 := by cases v <;> decide

/-- The byte before the last still holds the old padding value, so no other value from 2 up is valid. -/
theorem not_paddingValid_set_last {data : Vector Byte 32} {v : Variant} {n : Byte} (hp : PaddingValid data v)
    (hold : 2 ≤ (lastByte data v).toNat) (hnew : 2 ≤ n.toNat) (hne : n ≠ lastByte data v) :
    ¬PaddingValid (data.set (bs v - 1) n (bs_sub_one_lt v)) v := by
  intro hp'
  obtain ⟨-, hle, hrun⟩ := hp
  obtain ⟨-, -, hrun'⟩ := hp'
  rw [lastByte_set] at hrun'
  have hbs := bs_le v
  have hi : bs v - 2 < 32 := by omega
  have hget := hrun ⟨bs v - 2, hi⟩ (by simp only; omega) (by simp only; omega)
  have hget' := hrun' ⟨bs v - 2, hi⟩ (by simp only; omega) (by simp only; omega)
  simp only [Fin.getElem_fin] at hget hget'
  rw [Vector.getElem_set_ne _ _ (by omega)] at hget'
  exact hne (hget'.symm.trans hget)

/-- Settles O15: the changed block is no longer validly padded. -/
theorem tamperedRunOfTwoOrMoreIsRejected : Obligations.TamperedRunOfTwoOrMoreIsRejected :=
  fun _ _ _ hd hp hold hnew hne =>
    exec_unpad_of_invalid (dlen_eq_ofNat_bs hd) (not_paddingValid_set_last hp hold hnew hne)

/-! ### The source's functions (R63, R64) -/

theorem length_padBytes (data : List Byte) (n : Nat) :
    (padBytes data n).length = data.length + (n - data.length % n) := by
  simp [padBytes]

/-- The padded length is the next multiple: one block more than the full blocks of the data. -/
theorem length_padBytes_eq_mul (data : List Byte) {n : Nat} (hn : 0 < n) :
    (padBytes data n).length = n * (data.length / n + 1) := by
  have hdiv := Nat.div_add_mod data.length n
  have hmod := Nat.mod_lt data.length hn
  rw [length_padBytes, Nat.mul_succ]
  omega

/-- Settles O11: the length by the division of the data's length by the block size. -/
theorem paddedLengthIsTheNextMultiple : Obligations.PaddedLengthIsTheNextMultiple := by
  intro data n hn
  have hmod := Nat.mod_lt data.length hn
  refine ⟨?_, ?_, ?_, ?_, ?_⟩
  · rw [length_padBytes_eq_mul data hn, Nat.mul_mod_right]
  · rw [length_padBytes]
    omega
  · rw [length_padBytes]
    omega
  · rw [padBytes, List.take_left]
  · rw [padBytes, List.drop_left]
    exact fun b hb => List.eq_of_mem_replicate hb

/-- `unpad` gives `m` exactly on `m` followed by a run of some byte, as long as that byte says, from 1 to `n` (R64). -/
theorem unpadBytes_eq_some_iff (buf m : List Byte) (n : Nat) : unpadBytes buf n = some m ↔
    ∃ b : Byte, b.toNat ≠ 0 ∧ b.toNat ≤ n ∧ m ++ List.replicate b.toNat b = buf := by
  constructor
  · intro h
    simp only [unpadBytes] at h
    split at h
    next => cases h
    next last _ =>
      split at h
      next => cases h
      next hok =>
        cases h
        push Not at hok
        obtain ⟨hpos, hle, hlen, hrun⟩ := hok
        have hdrop : buf.drop (buf.length - last.toNat) = List.replicate last.toNat last :=
          List.eq_replicate_iff.mpr ⟨by rw [List.length_drop]; omega, hrun⟩
        exact ⟨last, hpos, hle, by rw [← hdrop, List.take_append_drop]⟩
  · rintro ⟨b, hpos, hle, rfl⟩
    have hlast : (m ++ List.replicate b.toNat b).getLast? = some b := by
      simp [List.getLast?_append, List.getLast?_replicate, hpos]
    simp [unpadBytes, hlast, hpos, Nat.not_lt.mpr hle]

/-- Settles O12: `pad` appends a run as long as its byte says, which is what `unpad` strips. -/
theorem unpadUndoesPad : Obligations.UnpadUndoesPad := by
  intro data n hn hn'
  have hmod := Nat.mod_lt data.length hn
  have hbyte : (BitVec.ofNat 8 (n - data.length % n)).toNat = n - data.length % n :=
    Nat.mod_eq_of_lt (by omega)
  exact (unpadBytes_eq_some_iff _ _ _).mpr
    ⟨BitVec.ofNat 8 (n - data.length % n), by omega, by omega, by rw [hbyte, padBytes]⟩

/-- `unpad` inspects the last block only: blocks before it are passed through (R69). -/
theorem unpadBytes_append (front block : List Byte) :
    unpadBytes (front ++ block) block.length = (unpadBytes block block.length).map (front ++ ·) := by
  refine Option.ext fun m => ?_
  simp only [Option.map_eq_some_iff, unpadBytes_eq_some_iff]
  constructor
  · rintro ⟨b, hpos, hle, heq⟩
    have hsuffix : List.replicate b.toNat b <:+ block :=
      List.suffix_of_suffix_length_le ⟨m, heq⟩ (List.suffix_append front block) (by simpa using hle)
    obtain ⟨m', rfl⟩ := hsuffix
    rw [← List.append_assoc] at heq
    exact ⟨m', ⟨b, hpos, hle, rfl⟩, (List.append_cancel_right heq).symm⟩
  · rintro ⟨m', ⟨b, hpos, hle, heq⟩, rfl⟩
    exact ⟨b, hpos, hle, by rw [List.append_assoc, heq]⟩

/-! ### The commands compute the source's functions (R69) -/

/-- Settles O13: PAD appends to the rest of the message what `pad` appends to the message. -/
theorem padCommandComputesTheSourcesPad : Obligations.PadCommandComputesTheSourcesPad := by
  intro v m s hd hdata
  have hlt : s.dlen.toNat < bs v := hd ▸ Nat.mod_lt _ (bs_pos v)
  refine ⟨_, exec_pad_of_lt hlt, rfl, ofNat_bs_toNat v, ?_⟩
  rw [padFill_toList_take _ _ _ hlt.le (bs_le v), hd, hdata, ← List.append_assoc, List.take_append_drop, padBytes]

theorem length_take_bs (data : Vector Byte 32) (v : Variant) : (data.toList.take (bs v)).length = bs v := by
  simpa using bs_le v

/-- On a validly padded block, `unpad` gives the bytes before the padding. -/
theorem unpadBytes_block_of_valid {data : Vector Byte 32} {v : Variant} (hp : PaddingValid data v) :
    unpadBytes (data.toList.take (bs v)) (bs v) = some (data.toList.take (bs v - (lastByte data v).toNat)) := by
  obtain ⟨hpos, hle, hrun⟩ := hp
  refine (unpadBytes_eq_some_iff _ _ _).mpr ⟨lastByte data v, hpos, hle, ?_⟩
  have hbs := bs_le v
  refine List.ext_getElem (by simp; omega) fun i h1 h2 => ?_
  have hi : i < bs v := by simpa using h2.trans_le (length_take_bs data v).le
  by_cases hlt : i < bs v - (lastByte data v).toNat
  · have h32 : i < 32 := by omega
    simp [hlt, h32]
  · have hbyte := hrun ⟨i, by omega⟩ (by simp only; omega) hi
    simp only [Fin.getElem_fin] at hbyte
    simp [List.getElem_append, hlt, hbyte]

/-- What `unpad` strips from a block is a valid padding. -/
theorem paddingValid_of_unpadBytes {data : Vector Byte 32} {v : Variant} {m : List Byte}
    (h : unpadBytes (data.toList.take (bs v)) (bs v) = some m) : PaddingValid data v := by
  obtain ⟨b, hpos, hle, heq⟩ := (unpadBytes_eq_some_iff _ _ _).mp h
  have hlen : m.length + b.toNat = bs v := by
    simpa [Nat.min_eq_left (bs_le v)] using congrArg List.length heq
  have hbyte : ∀ i (hi : i < 32), m.length ≤ i → i < bs v → data[i] = b := by
    intro i hi hge hlt
    have hget : (data.toList.take (bs v))[i]? = some b := by
      rw [← heq, List.getElem?_append_right hge, List.getElem?_replicate_of_lt (by omega)]
    simpa [List.getElem?_take, hlt, hi] using hget
  have hlast : lastByte data v = b := hbyte _ _ (by omega) (by omega)
  rw [PaddingValid, hlast]
  exact ⟨hpos, hle, fun i hge hlt => hbyte i i.isLt (by omega) hlt⟩

/-- Settles O14: `unpad` passes the earlier blocks through, and on the last block it strips a valid padding and nothing
else, as UNPAD does. -/
theorem unpadCommandComputesTheSourcesUnpad : Obligations.UnpadCommandComputesTheSourcesUnpad := by
  intro v c k s _ _ hd hdata
  have hc : unpadBytes c (bs v) =
      (unpadBytes (s.data.toList.take (bs v)) (bs v)).map (c.take ((k - 1) * bs v) ++ ·) := by
    have happ := unpadBytes_append (c.take ((k - 1) * bs v)) (s.data.toList.take (bs v))
    rwa [length_take_bs, hdata, List.take_append_drop, ← hdata] at happ
  have hd' := dlen_eq_ofNat_bs hd
  by_cases hp : PaddingValid s.data v
  · have hlt : bs v - (lastByte s.data v).toNat < 2 ^ 32 := by
      have := bs_le v
      omega
    refine ⟨_, exec_unpad_of_valid hd' hp, .inl rfl, ?_, fun _ => ?_⟩
    · simp [hc, unpadBytes_block_of_valid hp]
    · rw [hc, unpadBytes_block_of_valid hp, BitVec.toNat_ofNat, Nat.mod_eq_of_lt hlt]
      rfl
  · have hnone : unpadBytes (s.data.toList.take (bs v)) (bs v) = none :=
      Option.eq_none_iff_forall_ne_some.mpr fun _ hm => hp (paddingValid_of_unpadBytes hm)
    exact ⟨_, exec_unpad_of_invalid hd' hp, .inr rfl, by simp [hc, hnone], fun herr => by simp at herr⟩

end Sys2Proof.Machine

/-! ## Proofs: the key schedule (41_key_schedule.md) -/

namespace Sys2Proof.Machine

/-! ### What EXPAND answers, by `KEYLEN` (R78, R79) -/

section
variable {s : State} {v : Variant}

theorem exec_expand_of_emptyKey (h : s.keylen = 0#32) :
    exec (instrOf .expand v) s = .next { s with svalid := false, err := 1#3, busy := false } :=
  (exec_expand v s).trans (runExpand_of_emptyKey h)

theorem exec_expand_of_key (h : s.keylen ≠ 0#32) :
    exec (instrOf .expand v) s = .next { s with
      sched := storeSchedule s.sched (expandedKey v s.key s.keylen), svar := v, svalid := true, err := 0#3,
      busy := false } :=
  (exec_expand v s).trans (runExpand_of_key h)

end

/-! ### The sigma functions of R76, with the rotations of the library -/

theorem sigma0_eq_rotateRight (x : Word) : sigma0 x = x.rotateRight 7 ^^^ x.rotateRight 18 ^^^ x >>> 3 := by
  rw [sigma0, rotr_eq_rotateRight x 7 (by decide) (by decide), rotr_eq_rotateRight x 18 (by decide) (by decide), shr]

theorem sigma1_eq_rotateRight (x : Word) : sigma1 x = x.rotateRight 17 ^^^ x.rotateRight 19 ^^^ x >>> 10 := by
  rw [sigma1, rotr_eq_rotateRight x 17 (by decide) (by decide), rotr_eq_rotateRight x 19 (by decide) (by decide), shr]

/-! ### The words of a stored schedule -/

section
variable (sched : Vector Word 80) (key : Vector Byte 64) (keylen : Word)

/-- The first `rounds v` words are those of the expanded key, whatever was in `SCHED` before. -/
theorem storeSchedule_expandedKey_of_lt_rounds {v : Variant} {i : Nat} (hi : i < 80) (hr : i < rounds v) :
    (storeSchedule sched (expandedKey v key keylen))[i] = wordAt (expandedKey v key keylen) i :=
  storeSchedule_getElem_lt _ _ i hi (by rwa [expandedKey_length])

/-- Words past the variant's rounds stay (R79). -/
theorem storeSchedule_expandedKey_of_rounds_le {v : Variant} {i : Nat} (hi : i < 80) (hr : rounds v ≤ i) :
    (storeSchedule sched (expandedKey v key keylen))[i] = sched[i] :=
  storeSchedule_getElem_ge _ _ i hi (by rwa [expandedKey_length])

/-- The first sixteen words are the key words (R75, R77). -/
theorem storeSchedule_expandedKey_of_lt_sixteen (v : Variant) {j : Nat} (hj : j < 16) :
    (storeSchedule sched (expandedKey v key keylen))[j] = keyWord key keylen j hj := by
  rw [storeSchedule_expandedKey_of_lt_rounds _ _ _ _ (hj.trans_le (rounds_ge v)), expandedKey_lt hj]

variable {sched key keylen} {W : Vector Word 80}

/-- The recurrence of R75, with the rotation of the library. -/
theorem shacal1_recurrence_of_storeSchedule (hW : W = storeSchedule sched (expandedKey .shacal1 key keylen))
    (i : Fin 80) (hi : 16 ≤ i.val) :
    W[i] = (W[i.val - 3] ^^^ W[i.val - 8] ^^^ W[i.val - 14] ^^^ W[i.val - 16]).rotateLeft 1 := by
  rw [← rotl_eq_rotateLeft _ 1 (by decide)]
  exact scheduleGenuine_storeSchedule (s := { State.reset with sched := W, svalid := true, svar := .shacal1 }) hW rfl i
    hi

/-- The recurrence of R77, with `sigma0` and `sigma1` written out (R76). -/
theorem shacal2_recurrence_of_storeSchedule (hW : W = storeSchedule sched (expandedKey .shacal2 key keylen))
    (i : Fin 80) (hi : 16 ≤ i.val) (hlt : i.val < 64) :
    W[i] = ((W[i.val - 2]).rotateRight 17 ^^^ (W[i.val - 2]).rotateRight 19 ^^^ W[i.val - 2] >>> 10) + W[i.val - 7] +
      ((W[i.val - 15]).rotateRight 7 ^^^ (W[i.val - 15]).rotateRight 18 ^^^ W[i.val - 15] >>> 3) + W[i.val - 16] := by
  rw [← sigma1_eq_rotateRight, ← sigma0_eq_rotateRight]
  exact scheduleGenuine_storeSchedule (s := { State.reset with sched := W, svalid := true, svar := .shacal2 }) hW rfl i
    hi hlt

end

/-- Settles O16: the answers of EXPAND, and of the stored schedule the key words and the recurrence of SHACAL1. -/
theorem expandS1DerivesTheSchedule : Obligations.ExpandS1DerivesTheSchedule := by
  refine ⟨decode_encode .expandS1, fun s => ⟨exec_expand_of_emptyKey (v := .shacal1), fun h =>
    ⟨_, exec_expand_of_key (v := .shacal1) h, fun j nk hnk => ?_, shacal1_recurrence_of_storeSchedule rfl⟩⟩⟩
  rw [storeSchedule_expandedKey_of_lt_sixteen _ _ _ _ j.isLt, keyWord_toNat _ _ _ j.isLt nk hnk]

/-- Settles O17: as for SHACAL1, and the words past the 64 rounds stay. -/
theorem expandS2DerivesTheSchedule : Obligations.ExpandS2DerivesTheSchedule := by
  refine ⟨decode_encode .expandS2, fun s => ⟨exec_expand_of_emptyKey (v := .shacal2), fun h =>
    ⟨_, exec_expand_of_key (v := .shacal2) h, fun j nk hnk => ?_, shacal2_recurrence_of_storeSchedule rfl,
      fun i => storeSchedule_expandedKey_of_rounds_le (v := .shacal2) _ _ _ i.isLt⟩⟩⟩
  rw [storeSchedule_expandedKey_of_lt_sixteen _ _ _ _ j.isLt, keyWord_toNat _ _ _ j.isLt nk hnk]

/-! ### Two keys (R81) -/

section
variable {key key' : Vector Byte 64} {l l' : Word}

/-- The packing of bytes into words loses nothing, so keys with the same key words have the same normalized bytes. -/
theorem keyWord_eq_iff_normalizedKey_eq : (∀ j (hj : j < 16), keyWord key l j hj = keyWord key' l' j hj) ↔
    ∀ i (hi : i < 64), normalizedKey key l i hi = normalizedKey key' l' i hi := by
  constructor
  · intro h i hi
    obtain ⟨j, hj, hpos⟩ : ∃ j < 16, i = 4 * j ∨ i = 4 * j + 1 ∨ i = 4 * j + 2 ∨ i = 4 * j + 3 :=
      ⟨i / 4, by omega, by omega⟩
    obtain ⟨h0, h1, h2, h3⟩ := be32_inj (h j hj)
    rcases hpos with rfl | rfl | rfl | rfl <;> assumption
  · intro h j hj
    simp only [keyWord, h]

/-- A schedule holds the key words and is made from them alone, so two agree exactly when their key words do. -/
theorem storeSchedule_eq_iff_keyWord_eq (v : Variant) (sched sched' : Vector Word 80) :
    (∀ i : Fin 80, i.val < rounds v →
      (storeSchedule sched (expandedKey v key l))[i] = (storeSchedule sched' (expandedKey v key' l'))[i]) ↔
    ∀ j (hj : j < 16), keyWord key l j hj = keyWord key' l' j hj := by
  constructor
  · intro h j hj
    have hword := h ⟨j, by omega⟩ (hj.trans_le (rounds_ge v))
    rwa [Fin.getElem_fin, Fin.getElem_fin, storeSchedule_expandedKey_of_lt_sixteen _ _ _ _ hj,
      storeSchedule_expandedKey_of_lt_sixteen _ _ _ _ hj] at hword
  · intro h i hi
    have hexp : expandedKey v key l = expandedKey v key' l' := expandWords_congr _ h _
    rw [Fin.getElem_fin, Fin.getElem_fin, storeSchedule_expandedKey_of_lt_rounds _ _ _ i.isLt hi,
      storeSchedule_expandedKey_of_lt_rounds _ _ _ i.isLt hi, hexp]

end

/-- Settles O18: the schedules agree exactly when the key words do, and these exactly when the normalized bytes do. -/
theorem sameScheduleIffSameNormalizedKey : Obligations.SameScheduleIffSameNormalizedKey := by
  intro v s s' h h'
  refine ⟨_, _, exec_expand_of_key h, exec_expand_of_key h', ?_⟩
  rw [storeSchedule_eq_iff_keyWord_eq, keyWord_eq_iff_normalizedKey_eq]
  simp only [normalizedKey_eq, Fin.forall_iff]

end Sys2Proof.Machine

/-! ## Proofs: the block transform (42_block_transform.md) -/

namespace Sys2Proof.Machine

/-! ### What ENC and DEC answer, by their operands (R101 to R104) -/

section
variable {s : State} {op : Op} {v : Variant}

theorem exec_transform (ho : op = .enc ∨ op = .dec) (s : State) (v : Variant) :
    exec (instrOf op v) s = runTransform v (cipherOf op v) s := by
  rcases ho with rfl | rfl
  · exact exec_enc v s
  · exact exec_dec v s

theorem exec_transform_of_badLength (ho : op = .enc ∨ op = .dec) (h : s.dlen ≠ BitVec.ofNat 32 (bs v)) :
    exec (instrOf op v) s = .next { s with err := 2#3, busy := false } :=
  (exec_transform ho s v).trans (runTransform_of_badLength fun hb => h ((hasBlock_iff s v).mp hb))

theorem exec_transform_of_noSchedule (ho : op = .enc ∨ op = .dec) (h : s.dlen = BitVec.ofNat 32 (bs v))
    (hs : ¬(s.svalid = true ∧ s.svar = v)) :
    exec (instrOf op v) s = .next { s with err := 4#3, busy := false } :=
  (exec_transform ho s v).trans
    (runTransform_of_noSchedule ((hasBlock_iff s v).mpr h) fun hr => hs ((hasSchedule_iff s v).mp hr))

theorem exec_transform_of_ready (ho : op = .enc ∨ op = .dec) (h : s.dlen = BitVec.ofNat 32 (bs v))
    (hvalid : s.svalid = true) (hvar : s.svar = v) : exec (instrOf op v) s = .next { s with
      data := cipherOf op v s.sched s.data, err := 0#3, busy := false } :=
  (exec_transform ho s v).trans
    (runTransform_of_ready ((hasBlock_iff s v).mpr h) ((hasSchedule_iff s v).mpr ⟨hvalid, hvar⟩))

end

/-! ### One round and its inverse (R88, R89, R95, R96) -/

section
variable (t : Nat) (w : Word)

@[simp] theorem inverse1_forward1 (s : Work1) : inverse1 t w (forward1 t w s) = s := by
  obtain ⟨a, b, c, d, e⟩ := s
  have he : rotl a 5 + f1 t b c d + e + k1 t + w - rotl a 5 - f1 t b c d - k1 t - w = e := by ring
  simp only [inverse1, forward1, rotr_rotl_30, he]

@[simp] theorem forward1_inverse1 (s : Work1) : forward1 t w (inverse1 t w s) = s := by
  obtain ⟨a, b, c, d, e⟩ := s
  have ha (x y : Word) : x + y + (a - x - y - k1 t - w) + k1 t + w = a := by ring
  simp only [inverse1, forward1, rotl_rotr_30, ha]

@[simp] theorem inverse2_forward2 (s : Work2) : inverse2 t w (forward2 t w s) = s := by
  obtain ⟨a, b, c, d, e, f, g, h⟩ := s
  have hh (x y : Word) : h + x + y + k2 t + w - x - y - k2 t - w = h := by ring
  simp only [inverse2, forward2, add_sub_cancel_right, hh]

@[simp] theorem forward2_inverse2 (s : Work2) : forward2 t w (inverse2 t w s) = s := by
  obtain ⟨a, b, c, d, e, f, g, h⟩ := s
  have ht1 (x y z : Word) : x - y - z - k2 t - w + y + z + k2 t + w = x := by ring
  simp only [inverse2, forward2, ht1, sub_add_cancel]

end

/-- Settles O22: the inverse round takes off again what the forward round added, and turns its rotation back. -/
theorem inverseRoundsUndoForwardRounds : Obligations.InverseRoundsUndoForwardRounds :=
  ⟨fun t w s => ⟨inverse1_forward1 t w s, forward1_inverse1 t w s⟩,
    fun t w s => ⟨inverse2_forward2 t w s, forward2_inverse2 t w s⟩⟩

/-! ### Runs of rounds and their inverses (R90, R91, R97, R98, R100) -/

section
variable (W : Nat → Word) (n : Nat)

@[simp] theorem decRounds1_encRounds1 (s : Work1) : decRounds1 W n (encRounds1 W n s) = s := by
  induction n with
  | zero => rfl
  | succ n ih => rw [encRounds1, decRounds1, inverse1_forward1, ih]

@[simp] theorem encRounds1_decRounds1 (s : Work1) : encRounds1 W n (decRounds1 W n s) = s := by
  induction n generalizing s with
  | zero => rfl
  | succ n ih => rw [encRounds1, decRounds1, ih, forward1_inverse1]

@[simp] theorem decRounds2_encRounds2 (s : Work2) : decRounds2 W n (encRounds2 W n s) = s := by
  induction n with
  | zero => rfl
  | succ n ih => rw [encRounds2, decRounds2, inverse2_forward2, ih]

@[simp] theorem encRounds2_decRounds2 (s : Work2) : encRounds2 W n (decRounds2 W n s) = s := by
  induction n generalizing s with
  | zero => rfl
  | succ n ih => rw [encRounds2, decRounds2, ih, forward2_inverse2]

end

section
variable (sched : Vector Word 80) (t : Fin 80)

theorem encRounds1_succ (x : Work1) : encRounds1 (schedWord sched) (t.val + 1) x =
    forward1 t.val sched[t] (encRounds1 (schedWord sched) t.val x) := by
  rw [encRounds1, schedWord_eq sched t.val t.isLt, Fin.getElem_fin]

theorem encRounds2_succ (x : Work2) : encRounds2 (schedWord sched) (t.val + 1) x =
    forward2 t.val sched[t] (encRounds2 (schedWord sched) t.val x) := by
  rw [encRounds2, schedWord_eq sched t.val t.isLt, Fin.getElem_fin]

/-- A run of forward rounds, read from its end, takes inverse rounds. -/
theorem encRounds1_eq_inverse1 (x : Work1) : encRounds1 (schedWord sched) t.val x =
    inverse1 t.val sched[t] (encRounds1 (schedWord sched) (t.val + 1) x) := by
  rw [encRounds1_succ, inverse1_forward1]

/-- As for SHACAL-1. -/
theorem encRounds2_eq_inverse2 (x : Work2) : encRounds2 (schedWord sched) t.val x =
    inverse2 t.val sched[t] (encRounds2 (schedWord sched) (t.val + 1) x) := by
  rw [encRounds2_succ, inverse2_forward2]

end

/-! ### The four commands (R101 to R104) -/

/-- Settles O23: the working state after `t` rounds is the run of the first `t` forward rounds on the block's words. -/
theorem encS1RunsEightyForwardRounds : Obligations.EncS1RunsEightyForwardRounds := by
  refine ⟨decode_encode .encS1, fun s =>
    ⟨exec_transform_of_badLength (op := .enc) (v := .shacal1) (.inl rfl),
      exec_transform_of_noSchedule (op := .enc) (v := .shacal1) (.inl rfl), fun hlen hvalid hvar => ?_⟩⟩
  have hexec := exec_transform_of_ready (op := .enc) (.inl rfl) hlen hvalid hvar
  exact ⟨encrypt1 s.sched s.data, fun t => encRounds1 (schedWord s.sched) t (load1 s.data), hexec, rfl,
    fun t => encRounds1_succ s.sched t _, (load1_store1 _ _).symm, fun i => store1_getElem_ge _ _ i.val i.isLt⟩

/-- Settles O24: the inverse rounds go back through the states of the forward run that leads from the output block to
the input block. -/
theorem decS1RunsEightyInverseRounds : Obligations.DecS1RunsEightyInverseRounds := by
  refine ⟨decode_encode .decS1, fun s =>
    ⟨exec_transform_of_badLength (op := .dec) (v := .shacal1) (.inr rfl),
      exec_transform_of_noSchedule (op := .dec) (v := .shacal1) (.inr rfl), fun hlen hvalid hvar => ?_⟩⟩
  have hexec := exec_transform_of_ready (op := .dec) (.inr rfl) hlen hvalid hvar
  exact ⟨decrypt1 s.sched s.data,
    fun t => encRounds1 (schedWord s.sched) t (decRounds1 (schedWord s.sched) 80 (load1 s.data)), hexec,
    encRounds1_decRounds1 _ _ _, fun t => encRounds1_eq_inverse1 s.sched t _, (load1_store1 _ _).symm,
    fun i => store1_getElem_ge _ _ i.val i.isLt⟩

/-- Settles O25: as for SHACAL1, with the block filling all of `DATA`. -/
theorem encS2RunsSixtyFourForwardRounds : Obligations.EncS2RunsSixtyFourForwardRounds := by
  refine ⟨decode_encode .encS2, fun s =>
    ⟨exec_transform_of_badLength (op := .enc) (v := .shacal2) (.inl rfl),
      exec_transform_of_noSchedule (op := .enc) (v := .shacal2) (.inl rfl), fun hlen hvalid hvar => ?_⟩⟩
  have hexec := exec_transform_of_ready (op := .enc) (.inl rfl) hlen hvalid hvar
  exact ⟨encrypt2 s.sched s.data, fun t => encRounds2 (schedWord s.sched) t (load2 s.data), hexec, rfl,
    fun t _ => encRounds2_succ s.sched t _, (load2_store2 _ _).symm⟩

/-- Settles O26: as for SHACAL1, with the block filling all of `DATA`. -/
theorem decS2RunsSixtyFourInverseRounds : Obligations.DecS2RunsSixtyFourInverseRounds := by
  refine ⟨decode_encode .decS2, fun s =>
    ⟨exec_transform_of_badLength (op := .dec) (v := .shacal2) (.inr rfl),
      exec_transform_of_noSchedule (op := .dec) (v := .shacal2) (.inr rfl), fun hlen hvalid hvar => ?_⟩⟩
  have hexec := exec_transform_of_ready (op := .dec) (.inr rfl) hlen hvalid hvar
  exact ⟨decrypt2 s.sched s.data,
    fun t => encRounds2 (schedWord s.sched) t (decRounds2 (schedWord s.sched) 64 (load2 s.data)), hexec,
    encRounds2_decRounds2 _ _ _, fun t _ => encRounds2_eq_inverse2 s.sched t _, (load2_store2 _ _).symm⟩

/-! ### The ciphers undo each other (R100) -/

section
variable (sched : Vector Word 80) (data : Vector Byte 32)

theorem decrypt1_encrypt1 : decrypt1 sched (encrypt1 sched data) = data := by
  apply eq_of_load1_eq_of_rest
  · simp only [decrypt1, encrypt1, load1_store1, decRounds1_encRounds1]
  · intro i hi h20
    simp only [decrypt1, encrypt1, store1_getElem_ge _ _ i hi h20]

theorem encrypt1_decrypt1 : encrypt1 sched (decrypt1 sched data) = data := by
  apply eq_of_load1_eq_of_rest
  · simp only [decrypt1, encrypt1, load1_store1, encRounds1_decRounds1]
  · intro i hi h20
    simp only [decrypt1, encrypt1, store1_getElem_ge _ _ i hi h20]

theorem decrypt2_encrypt2 : decrypt2 sched (encrypt2 sched data) = data :=
  eq_of_load2_eq (by simp only [decrypt2, encrypt2, load2_store2, decRounds2_encRounds2])

theorem encrypt2_decrypt2 : encrypt2 sched (decrypt2 sched data) = data :=
  eq_of_load2_eq (by simp only [decrypt2, encrypt2, load2_store2, encRounds2_decRounds2])

theorem cipherOf_dec_enc (v : Variant) : cipherOf .dec v sched (cipherOf .enc v sched data) = data := by
  cases v with
  | shacal1 => exact decrypt1_encrypt1 sched data
  | shacal2 => exact decrypt2_encrypt2 sched data

theorem cipherOf_enc_dec (v : Variant) : cipherOf .enc v sched (cipherOf .dec v sched data) = data := by
  cases v with
  | shacal1 => exact encrypt1_decrypt1 sched data
  | shacal2 => exact encrypt2_decrypt2 sched data

end

/-- Two transforms in a row: the first leaves length and schedule as they are, so the second completes too. -/
theorem exec_transform_twice {op op' : Op} {v : Variant} {s : State} (ho : op = .enc ∨ op = .dec)
    (ho' : op' = .enc ∨ op' = .dec) (hlen : s.dlen.toNat = bs v) (hvalid : s.svalid = true) (hvar : s.svar = v) :
    ∃ t, exec (instrOf op v) s = .next t ∧ exec (instrOf op' v) t = .next { s with
      data := cipherOf op' v s.sched (cipherOf op v s.sched s.data), err := 0#3, busy := false } :=
  have hblock := dlen_eq_ofNat_bs hlen
  ⟨_, exec_transform_of_ready ho hblock hvalid hvar, exec_transform_of_ready ho' hblock hvalid hvar⟩

/-- Settles O27: each command completes after the other, and their ciphers undo each other. -/
theorem encryptionAndDecryptionUndoEachOther : Obligations.EncryptionAndDecryptionUndoEachOther := by
  intro v s hlen hvalid hvar
  have hdec := exec_transform_twice (op := .enc) (op' := .dec) (.inl rfl) (.inr rfl) hlen hvalid hvar
  have henc := exec_transform_twice (op := .dec) (op' := .enc) (.inr rfl) (.inl rfl) hlen hvalid hvar
  rw [cipherOf_dec_enc] at hdec
  rw [cipherOf_enc_dec] at henc
  exact ⟨hdec, henc⟩

/-! ### What a transform depends on (R105) -/

section
variable {sched sched' : Vector Word 80} {x y : Vector Byte 32}

theorem schedWord_congr {v : Variant} (h : ∀ i : Fin 80, i.val < rounds v → sched[i] = sched'[i]) :
    ∀ t < rounds v, schedWord sched t = schedWord sched' t := by
  intro t ht
  have h80 : t < 80 := ht.trans_le (rounds_le v)
  rw [schedWord_eq _ _ h80, schedWord_eq _ _ h80]
  exact h ⟨t, h80⟩ ht

/-- A stored SHACAL-1 working state alone decides the bytes of the block. -/
theorem store1_getElem_lt_congr (w : Work1) {i : Nat} (hi : i < 32) (h : i < 20) :
    (store1 x w)[i] = (store1 y w)[i] :=
  eq_of_load1_eq (by rw [load1_store1, load1_store1]) i hi h

/-- A stored SHACAL-2 working state alone decides `DATA`. -/
theorem store2_congr (w : Work2) : store2 x w = store2 y w :=
  eq_of_load2_eq (by rw [load2_store2, load2_store2])

theorem cipherOf_congr {op : Op} {v : Variant} (ho : op = .enc ∨ op = .dec)
    (hdata : ∀ i : Fin 32, i.val < bs v → x[i] = y[i])
    (hsched : ∀ i : Fin 80, i.val < rounds v → sched[i] = sched'[i]) (i : Fin 32) (hi : i.val < bs v) :
    (cipherOf op v sched x)[i] = (cipherOf op v sched' y)[i] := by
  have hW := schedWord_congr hsched
  cases v with
  | shacal1 =>
    have hload : load1 x = load1 y := load1_congr fun j hj => hdata ⟨j, hj⟩
    rcases ho with rfl | rfl
    · simp only [cipherOf, encrypt1, hload, encRounds1_congr _ hW]
      exact store1_getElem_lt_congr _ i.isLt hi
    · simp only [cipherOf, decrypt1, hload, decRounds1_congr _ hW]
      exact store1_getElem_lt_congr _ i.isLt hi
  | shacal2 =>
    obtain rfl : x = y := Vector.ext fun j hj => hdata ⟨j, hj⟩ hj
    rcases ho with rfl | rfl
    · simp only [cipherOf, encrypt2, encRounds2_congr _ hW]
    · simp only [cipherOf, decrypt2, decRounds2_congr _ hW]

end

/-- Settles O28: both commands complete, and the cipher's block depends on the block and the schedule words alone. -/
theorem transformDependsOnBlockAndScheduleAlone : Obligations.TransformDependsOnBlockAndScheduleAlone := by
  intro v op s s' ho hlen hvalid hvar hlen' hvalid' hvar' hdata hsched
  exact ⟨_, _, exec_transform_of_ready ho (dlen_eq_ofNat_bs hlen) hvalid hvar,
    exec_transform_of_ready ho (dlen_eq_ofNat_bs hlen') hvalid' hvar', cipherOf_congr ho hdata hsched⟩

/-! ### The rounds written out (R86 to R88, R92, R93, R95) -/

theorem forward1_eq (t : Nat) (w a b c d e : Word) : forward1 t w ⟨a, b, c, d, e⟩ =
    ⟨a.rotateLeft 5 + f1 t b c d + e + k1 t + w, a, b.rotateLeft 30, c, d⟩ := by
  simp only [forward1, rotl_eq_rotateLeft _ 5 (by decide), rotl_eq_rotateLeft _ 30 (by decide)]

/-- Settles O19: each range of `t` picks one branch of the round function and of the constant. -/
theorem shacal1ForwardRoundByRanges : Obligations.Shacal1ForwardRoundByRanges := by
  intro t w a b c d e r
  simp only [forward1_eq, f1, k1]
  refine ⟨fun h20 => ?_, fun h20 h40 => ?_, fun h40 h60 => ?_, fun h60 _ => ?_⟩
  · simp only [if_pos h20, r]
  · simp only [if_neg h20.not_gt, if_pos h40, r]
  · simp only [if_neg (show ¬t < 20 by omega), if_neg h40.not_gt, if_pos h60, r]
  · simp only [if_neg (show ¬t < 20 by omega), if_neg (show ¬t < 40 by omega), if_neg h60.not_gt, r]

theorem bigSigma0_eq_rotateRight (x : Word) :
    bigSigma0 x = x.rotateRight 2 ^^^ x.rotateRight 13 ^^^ x.rotateRight 22 := by
  rw [bigSigma0, rotr_eq_rotateRight x 2 (by decide) (by decide), rotr_eq_rotateRight x 13 (by decide) (by decide),
    rotr_eq_rotateRight x 22 (by decide) (by decide)]

theorem bigSigma1_eq_rotateRight (x : Word) :
    bigSigma1 x = x.rotateRight 6 ^^^ x.rotateRight 11 ^^^ x.rotateRight 25 := by
  rw [bigSigma1, rotr_eq_rotateRight x 6 (by decide) (by decide), rotr_eq_rotateRight x 11 (by decide) (by decide),
    rotr_eq_rotateRight x 25 (by decide) (by decide)]

/-- Settles O20: the mixing functions with the rotations of the library. -/
theorem shacal2ForwardRound : Obligations.Shacal2ForwardRound := by
  intro t w a b c d e f g h t1 t2
  simp only [forward2, bigSigma0_eq_rotateRight, bigSigma1_eq_rotateRight, ch, maj, t1, t2]

/-! ### The round constants (R87, R94) -/

/-- The first 64 primes, from which R94 makes the constants of SHACAL-2. -/
def firstPrimes : List Nat :=
  [2, 3, 5, 7, 11, 13, 17, 19, 23, 29, 31, 37, 41, 43, 47, 53, 59, 61, 67, 71, 73, 79, 83, 89, 97, 101, 103, 107, 109,
    113, 127, 131, 137, 139, 149, 151, 157, 163, 167, 173, 179, 181, 191, 193, 197, 199, 211, 223, 227, 229, 233, 239,
    241, 251, 257, 263, 269, 271, 277, 281, 283, 293, 307, 311]

/-- The prime from which R94 makes `K2_t`. -/
def primeAt (t : Fin 64) : Nat := firstPrimes[t.val]'t.isLt

/-- The list is complete: below its entry `t` there are exactly `t` primes. -/
theorem primeAt_prime_and_count (t : Fin 64) :
    (primeAt t).Prime ∧ ((List.range (primeAt t)).filter Nat.Prime).length = t.val := by
  revert t
  decide +kernel

/-- `K2_t` next to the integer part of the root is the cube root of the prime, cut off after 32 bits (R94). -/
theorem k2_cubeRoot (t : Fin 64) :
    (Nat.nthRoot 3 (primeAt t) * 2 ^ 32 + (k2 t).toNat) ^ 3 ≤ primeAt t * 2 ^ 96 ∧
      primeAt t * 2 ^ 96 < (Nat.nthRoot 3 (primeAt t) * 2 ^ 32 + (k2 t).toNat + 1) ^ 3 := by
  revert t
  decide

/-- `K1_t` is the square root of the number of its range, cut off after 30 bits (R87). -/
theorem k1_squareRoot (t : Nat) {n : Nat}
    (hn : n = if t < 20 then 2 else if t < 40 then 3 else if t < 60 then 5 else 10) :
    (k1 t).toNat ^ 2 ≤ n * 2 ^ 60 ∧ n * 2 ^ 60 < ((k1 t).toNat + 1) ^ 2 := by
  subst hn
  unfold k1
  split_ifs <;> decide

/-- Settles O21: the tables of the constants, each entry held to the root that its rule names. -/
theorem roundConstantsComeFromTheirRoots : Obligations.RoundConstantsComeFromTheirRoots := by
  refine ⟨fun t => ⟨primeAt t, Nat.nthRoot 3 (primeAt t), ?_⟩, fun t => ⟨_, rfl, k1_squareRoot t.val rfl⟩, rfl, rfl,
    rfl, fun _ => rfl⟩
  obtain ⟨hprime, hcount⟩ := primeAt_prime_and_count t
  exact ⟨hprime, hcount, k2_cubeRoot t⟩

end Sys2Proof.Machine

/-! ## Proofs: errors, progress and the host contract (60_exceptions.md) -/

namespace Sys2Proof.Machine

/-! ### What a raised error leaves (R110) -/

section
variable {i : Instr} {s t : State} (h : CommandEffect i s t)
include h

/-- A command that ends with a nonzero code writes `ERR` and `BUSY`, and an EXPAND clears `SVALID` too. -/
theorem CommandEffect.of_err_ne_zero (hne : t.err ≠ 0#3) :
    t = { s with svalid := (if i.op = .expand then false else s.svalid), err := t.err, busy := false } := by
  cases h with
  | writesData d n => exact absurd rfl hne
  | expands => exact absurd rfl hne
  | emptyKey hop => simp only [if_pos hop]
  | raises code hop => simp only [if_neg hop]

/-- An EXPAND that fails leaves no resident schedule (R78). -/
theorem CommandEffect.svalid_of_failedExpand (hne : t.err ≠ 0#3) (hop : i.op = .expand) : t.svalid = false := by
  rw [h.of_err_ne_zero hne]
  exact if_pos hop

end

/-- Settles O29: the frame of a raised error, and `NoSchedule` for want of a valid schedule. -/
theorem raisedErrorChangesNothingElse : Obligations.RaisedErrorChangesNothingElse := by
  intro i s t hexec hne
  have heffect := effect_of_exec hexec
  refine ⟨heffect.of_err_ne_zero hne, fun hop v d => ?_⟩
  have hsched : ¬(t.svalid = true ∧ t.svar = v) := by simp [heffect.svalid_of_failedExpand hne hop]
  exact ⟨exec_transform_of_noSchedule (.inl rfl) rfl hsched, exec_transform_of_noSchedule (.inr rfl) rfl hsched⟩

/-! ### Which command ends with which code (R109) -/

/-- The codes of an operation's row in the table of R109. -/
def codesOf : Op → List Nat
  | .expand => [0, 1]
  | .enc => [0, 2, 4]
  | .dec => [0, 2, 4]
  | .pad => [0, 2]
  | .unpad => [0, 2, 3]

theorem zero_mem_codesOf (op : Op) : 0 ∈ codesOf op := by
  cases op <;> decide

theorem two_mem_codesOf {op : Op} (h : op ≠ .expand) : 2 ∈ codesOf op := by
  cases op with
  | expand => exact absurd rfl h
  | _ => decide

/-- A command ends with a code of its row. -/
theorem CommandEffect.err_mem_codesOf {i : Instr} {s t : State} (h : CommandEffect i s t) :
    t.err.toNat ∈ codesOf i.op := by
  cases h with
  | writesData d n => exact zero_mem_codesOf _
  | expands => exact zero_mem_codesOf _
  | emptyKey hop => simp [hop, codesOf]
  | raises code hop hcode =>
    rcases hcode with rfl | ⟨rfl, hunpad⟩ | ⟨rfl, henc | hdec⟩
    · exact two_mem_codesOf hop
    · simp [hunpad, codesOf]
    · simp [henc, codesOf]
    · simp [hdec, codesOf]

/-- A command ends with a code, given as a number, on some state. -/
def EndsWith (i : Instr) (code : Nat) : Prop := ∃ s t : State, exec i s = .next t ∧ t.err.toNat = code

/-- The reset state with a whole block of some byte in `DATA`. -/
def wholeBlock (v : Variant) (b : Byte) : State :=
  { State.reset with data := Vector.replicate 32 b, dlen := BitVec.ofNat 32 (bs v) }

theorem reset_dlen_ne_block (v : Variant) : State.reset.dlen ≠ BitVec.ofNat 32 (bs v) := by
  cases v <;> decide

theorem reset_dlen_lt_block (v : Variant) : State.reset.dlen.toNat < bs v := by
  cases v <;> decide

/-- A block of bytes 1 ends with the padding of one byte. -/
theorem paddingValid_ones (v : Variant) : PaddingValid (Vector.replicate 32 1#8) v := by
  cases v <;> decide

/-- A block that ends with the byte 0 has no padding. -/
theorem not_paddingValid_zeros (v : Variant) : ¬PaddingValid (Vector.replicate 32 0#8) v := by
  cases v <;> decide

theorem expand_endsWith (v : Variant) : EndsWith (instrOf .expand v) 0 ∧ EndsWith (instrOf .expand v) 1 := by
  have hkey : ({ State.reset with keylen := 1#32 } : State).keylen ≠ 0#32 := by decide
  exact ⟨⟨_, _, exec_expand_of_key hkey, rfl⟩, ⟨State.reset, _, exec_expand_of_emptyKey rfl, rfl⟩⟩

theorem transform_endsWith {op : Op} (ho : op = .enc ∨ op = .dec) (v : Variant) :
    EndsWith (instrOf op v) 0 ∧ EndsWith (instrOf op v) 2 ∧ EndsWith (instrOf op v) 4 := by
  have hnone : ¬((wholeBlock v 0#8).svalid = true ∧ (wholeBlock v 0#8).svar = v) := fun h => by cases h.1
  exact ⟨⟨{ wholeBlock v 0#8 with svalid := true, svar := v }, _, exec_transform_of_ready ho rfl rfl rfl, rfl⟩,
    ⟨_, _, exec_transform_of_badLength ho (reset_dlen_ne_block v), rfl⟩,
    ⟨_, _, exec_transform_of_noSchedule ho rfl hnone, rfl⟩⟩

theorem pad_endsWith (v : Variant) : EndsWith (instrOf .pad v) 0 ∧ EndsWith (instrOf .pad v) 2 := by
  have hfull : bs v ≤ (wholeBlock v 0#8).dlen.toNat := (ofNat_bs_toNat v).ge
  exact ⟨⟨_, _, exec_pad_of_lt (reset_dlen_lt_block v), rfl⟩, ⟨_, _, exec_pad_of_ge hfull, rfl⟩⟩

theorem unpad_endsWith (v : Variant) :
    EndsWith (instrOf .unpad v) 0 ∧ EndsWith (instrOf .unpad v) 2 ∧ EndsWith (instrOf .unpad v) 3 :=
  ⟨⟨wholeBlock v 1#8, _, exec_unpad_of_valid rfl (paddingValid_ones v), rfl⟩,
    ⟨_, _, exec_unpad_of_badLength (reset_dlen_ne_block v), rfl⟩,
    ⟨wholeBlock v 0#8, _, exec_unpad_of_invalid rfl (not_paddingValid_zeros v), rfl⟩⟩

/-- Each code of a row is met. -/
theorem endsWith_of_mem_codesOf (op : Op) (v : Variant) : ∀ n ∈ codesOf op, EndsWith (instrOf op v) n := by
  cases op with
  | expand => simpa [codesOf] using expand_endsWith v
  | enc => simpa [codesOf] using transform_endsWith (.inl rfl) v
  | dec => simpa [codesOf] using transform_endsWith (.inr rfl) v
  | pad => simpa [codesOf] using pad_endsWith v
  | unpad => simpa [codesOf] using unpad_endsWith v

/-- A command ends with exactly the codes of its row. -/
theorem endsWith_iff (i : Instr) (n : Nat) : EndsWith i n ↔ n ∈ codesOf i.op := by
  constructor
  · rintro ⟨s, t, hexec, rfl⟩
    exact (effect_of_exec hexec).err_mem_codesOf
  · intro hn
    rw [← instrOf_op_variant i]
    exact endsWith_of_mem_codesOf i.op i.variant n hn

/-- Settles O30: no command ends with a code outside its row, and each code of the row is met on a state written out. -/
theorem eachCommandEndsWithTheCodesOfItsRow : Obligations.EachCommandEndsWithTheCodesOfItsRow := by
  constructor
  · intro s w hb hr hl
    rw [memWrite_reg s .ctrl w hr hb]
    exact congrArg State.err (writeCtrl_illegal hl)
  · intro i code
    have hrow := endsWith_iff i code.toNat
    simp only [EndsWith, BitVec.toNat_inj] at hrow
    exact hrow

/-! ### Every step has an answer (R107, R120) -/

/-- A step is only ever stopped by an illegal word in `PENDING`, which the invariant shuts out. -/
theorem exists_step_of_inv {s : State} (hs : s.Inv) : ∃ t, step s = .next t := by
  cases hm : s.mover with
  | host => exact ⟨_, step_of_host hm⟩
  | edge r => exact ⟨s.popTurn.clockEdge r, by simp only [step, hm]⟩
  | engine =>
    rw [step_of_engine hm]
    by_cases hen : s.busy = true ∧ s.rst = false
    · obtain ⟨hb, hr⟩ := hen
      obtain ⟨i, -, hturn⟩ := engineTurn_legal (s := s.popTurn) hb hr (hs.pendingLegal hb)
      obtain ⟨t, ht, -⟩ := exec_effect i s.popTurn
      exact ⟨t, hturn.trans ht⟩
    · exact ⟨_, engineTurn_idle (s := s.popTurn) hen⟩

/-- Settles O52: by who moves; the engine runs a legal command, and every command has a next state. -/
theorem machineNeverStops : Obligations.MachineNeverStops := fun _ => exists_step_of_inv

/-- Settles O46: neither agent has anything to do, so the turn alone is taken. -/
theorem idleMachineKeepsItsState : Obligations.IdleMachineKeepsItsState := by
  intro s hb hop hedge
  cases hm : s.mover with
  | host =>
    rw [step_of_host hm, State.hostTurn, State.nextHostOp_popTurn, hop]
    rfl
  | engine =>
    rw [step_of_engine hm]
    exact engineTurn_idle (by simp [hb])
  | edge r => exact absurd hm (hedge r)

/-! ### What the host reports itself (R121, R122) -/

/-- The host reports an empty key itself, before any transaction (R121 step 1). -/
theorem loadKeyAndExpand_nil (v : Variant) (s : State) : loadKeyAndExpand v [] s = .error (.core 1#3) := rfl

/-- Settles O55: the checks of the host come in the order of the rules, length before key. -/
theorem facadeReportsEmptyKeyAndInvalidLength : Obligations.FacadeReportsEmptyKeyAndInvalidLength := by
  intro v bytes key s
  refine ⟨rfl, fun hlen hmod => ?_, fun hbad => if_pos hbad⟩
  have hgood : ¬(bytes.length = 0 ∨ bytes.length % bs v ≠ 0) := by simp [hlen, hmod]
  rw [facadeDecrypt, if_neg hgood, loadKeyAndExpand_nil]

/-! ### The cipher of a variant on byte strings of one block (R90, R91, R97, R98) -/

/-- A byte buffer that starts with the bytes given, as many as fit. -/
def bufferOf {n : Nat} (bytes : List Byte) : Vector Byte n := Vector.ofFn fun i => bytes.getD i 0#8

/-- A transform with a schedule, on a byte string of one block. -/
def cipherBlock (op : Op) (v : Variant) (W : Vector Word 80) (block : List Byte) : List Byte :=
  (cipherOf op v W (bufferOf block)).toList.take (bs v)

section
variable {op : Op} {v : Variant} {W : Vector Word 80} {block : List Byte}

theorem bufferOf_take {n : Nat} (h : block.length ≤ n) :
    (bufferOf block : Vector Byte n).toList.take block.length = block := by
  refine List.ext_getElem (by simpa using h) fun i h1 h2 => ?_
  have hi : i < n := by omega
  simp [bufferOf, h2]

@[simp] theorem length_cipherBlock : (cipherBlock op v W block).length = bs v := length_take_bs _ v

/-- Buffers that start with the same block agree on its bytes. -/
theorem getElem_of_take_eq {x y : Vector Byte 32} {n : Nat} (h : x.toList.take n = y.toList.take n) {i : Nat}
    (hi : i < 32) (hn : i < n) : x[i] = y[i] := by
  have hget := congrArg (·[i]?) h
  simpa [List.getElem?_take, hn, hi] using hget

/-- A transform of a buffer gives the cipher of the block that the buffer starts with, whatever follows it (R105). -/
theorem take_cipherOf (ho : op = .enc ∨ op = .dec) {data : Vector Byte 32} (hlen : block.length = bs v)
    (hdata : data.toList.take (bs v) = block) :
    (cipherOf op v W data).toList.take (bs v) = cipherBlock op v W block := by
  have hbuf : data.toList.take (bs v) = (bufferOf block : Vector Byte 32).toList.take (bs v) := by
    rw [hdata, ← hlen, bufferOf_take (hlen.trans_le (bs_le v))]
  refine List.ext_getElem (by simp [cipherBlock]) fun i h1 h2 => ?_
  have hi : i < bs v := by simpa using h2
  have h32 : i < 32 := hi.trans_le (bs_le v)
  simpa [cipherBlock, h32] using cipherOf_congr ho
    (fun j hj => getElem_of_take_eq hbuf j.isLt hj) (fun _ _ => rfl) ⟨i, h32⟩ hi

/-- Decryption of a block undoes its encryption (R100). -/
theorem cipherBlock_dec_enc (h : block.length = bs v) :
    cipherBlock .dec v W (cipherBlock .enc v W block) = block := by
  rw [← take_cipherOf (data := cipherOf .enc v W (bufferOf block)) (.inr rfl) length_cipherBlock rfl,
    cipherOf_dec_enc, ← h, bufferOf_take (h.trans_le (bs_le v))]

end

/-! ### Commands on a core with a resident schedule and a byte string in DATA (R18, R19, R21, R22) -/

/-- The core is ready for a transaction and holds the schedule `W` of the variant. -/
structure Keyed (v : Variant) (W : Vector Word 80) (s : State) : Prop extends Ready s where
  svalid : s.svalid = true
  svar : s.svar = v
  sched : s.sched = W

/-- `DATA` holds a byte string of length `n`, and `DLEN` says so. -/
structure HoldsBytes (n : Nat) (bytes : List Byte) (s : State) : Prop where
  dlen : s.dlen = BitVec.ofNat 32 n
  data : s.data.toList.take n = bytes

section
variable {op : Op} {v : Variant} {W : Vector Word 80} {block bytes key : List Byte} {s : State}

theorem HoldsBytes.length_eq (h : HoldsBytes (bs v) block s) : block.length = bs v :=
  h.data ▸ length_take_bs s.data v

/-- The block that `DATA` holds is what the host reads back. -/
theorem HoldsBytes.readBlock (hb : HoldsBytes (bs v) block s) (h : Ready s) : readBlock s v = block :=
  (readBlock_eq v h).trans hb.data

/-- Loading bytes leaves the schedule alone. -/
theorem Keyed.loadData (h : Keyed v W s) (hlen : bytes.length ≤ 32) :
    Keyed v W (s.writeAll (loadDataWrites bytes)) ∧
      HoldsBytes bytes.length bytes (s.writeAll (loadDataWrites bytes)) := by
  obtain ⟨D, hload, hbytes⟩ := loadData_eq bytes s h.toReady hlen
  rw [hload]
  exact ⟨⟨⟨h.busy, h.rst⟩, h.svalid, h.svar, h.sched⟩, rfl, hbytes⟩

/-- A transform of the block in `DATA` runs without error (R101 to R104). -/
theorem Keyed.runCommand_transform (ho : op = .enc ∨ op = .dec) (h : Keyed v W s) (hb : HoldsBytes (bs v) block s) :
    ∃ t, runCommand s (commandOf op v) = .ok t ∧ Keyed v W t ∧
      HoldsBytes (bs v) (cipherBlock op v W block) t := by
  have hexec := exec_transform_of_ready (s := { s with pending := encode (instrOf op v), busy := true }) ho hb.dlen
    h.svalid h.svar
  refine ⟨_, runCommand_ok h.toReady hexec rfl, ⟨⟨rfl, h.rst⟩, h.svalid, h.svar, h.sched⟩, hb.dlen, ?_⟩
  rw [← h.sched]
  exact take_cipherOf ho hb.length_eq hb.data

/-- PAD of a partial block in `DATA` runs without error (R65, R66). -/
theorem Keyed.runCommand_pad (h : Keyed v W s) (hlen : bytes.length < bs v) (hb : HoldsBytes bytes.length bytes s) :
    ∃ t, runCommand s (commandOf .pad v) = .ok t ∧ Keyed v W t ∧ HoldsBytes (bs v) (padBytes bytes (bs v)) t := by
  have hle := bs_le v
  have hdlen : s.dlen.toNat = bytes.length := by
    rw [hb.dlen, BitVec.toNat_ofNat, Nat.mod_eq_of_lt (by omega)]
  have hexec := exec_pad_of_lt (s := { s with pending := encode (instrOf .pad v), busy := true }) (v := v)
    (hdlen.trans_lt hlen)
  refine ⟨_, runCommand_ok h.toReady hexec rfl, ⟨⟨rfl, h.rst⟩, h.svalid, h.svar, h.sched⟩, rfl, ?_⟩
  simp only [hdlen]
  rw [padFill_toList_take _ _ _ hlen.le hle, hb.data, padBytes, Nat.mod_eq_of_lt hlen]

/-- What `pad` has filled up to a block is validly padded, and all but the padding is what was padded (R63, R67). -/
theorem paddingValid_of_padded {data : Vector Byte 32} (hlen : bytes.length < bs v)
    (hdata : data.toList.take (bs v) = padBytes bytes (bs v)) :
    PaddingValid data v ∧ bs v - (lastByte data v).toNat = bytes.length := by
  have hle := bs_le v
  have hunpad : unpadBytes (data.toList.take (bs v)) (bs v) = some bytes := by
    rw [hdata]
    exact unpadUndoesPad bytes (bs v) (bs_pos v) (by omega)
  have hvalid := paddingValid_of_unpadBytes hunpad
  have hbytes : data.toList.take (bs v - (lastByte data v).toNat) = bytes :=
    Option.some.inj ((unpadBytes_block_of_valid hvalid).symm.trans hunpad)
  refine ⟨hvalid, ?_⟩
  rw [← hbytes, List.length_take, Vector.length_toList]
  omega

/-- UNPAD of a padded block in `DATA` runs without error and leaves the length before it in `DLEN` (R67, R68). -/
theorem Keyed.runCommand_unpad (h : Keyed v W s) (hlen : bytes.length < bs v)
    (hb : HoldsBytes (bs v) (padBytes bytes (bs v)) s) :
    ∃ t, runCommand s (commandOf .unpad v) = .ok t ∧ Ready t ∧ t.dlen = BitVec.ofNat 32 bytes.length := by
  obtain ⟨hvalid, hstripped⟩ := paddingValid_of_padded hlen hb.data
  have hexec := exec_unpad_of_valid (s := { s with pending := encode (instrOf .unpad v), busy := true }) hb.dlen hvalid
  exact ⟨_, runCommand_ok h.toReady hexec rfl, ⟨rfl, h.rst⟩, congrArg (BitVec.ofNat 32) hstripped⟩

/-! ### The key (R121 steps 1 to 3) -/

/-- The schedule of a key, over what was in `SCHED` before. -/
def scheduleOf (v : Variant) (key : List Byte) (sched : Vector Word 80) : Vector Word 80 :=
  storeSchedule sched (expandedKey v (bufferOf key) (BitVec.ofNat 32 key.length))

/-- Storing a schedule where it already lies changes nothing. -/
theorem scheduleOf_idem (sched : Vector Word 80) :
    scheduleOf v key (scheduleOf v key sched) = scheduleOf v key sched := by
  refine Vector.ext fun i hi => ?_
  simp only [scheduleOf, storeSchedule_getElem _ _ i hi, List.getD_eq_getElem?_getD]
  cases (expandedKey v (bufferOf key) (BitVec.ofNat 32 key.length))[i]? <;> rfl

/-- Loading and expanding a nonempty key gives a core that holds its schedule. -/
theorem Ready.loadKeyAndExpand_ok (h : Ready s) (hkey : key ≠ []) (hlen : key.length < 2 ^ 32) :
    ∃ t, loadKeyAndExpand v key s = .ok t ∧ Keyed v (scheduleOf v key s.sched) t := by
  obtain ⟨K, hload, hbytes⟩ := loadKey_eq key s h
  have htoNat : (BitVec.ofNat 32 key.length).toNat = key.length := Nat.mod_eq_of_lt hlen
  have hne : BitVec.ofNat 32 key.length ≠ 0#32 := by
    intro hz
    rw [hz] at htoNat
    exact hkey (List.length_eq_zero_iff.mp htoNat.symm)
  have hexp : expandedKey v K (BitVec.ofNat 32 key.length) =
      expandedKey v (bufferOf key) (BitVec.ofNat 32 key.length) := by
    refine expandedKey_congr hne fun i hi hlt => ?_
    rw [hbytes i hi (htoNat ▸ hlt)]
    simp [bufferOf]
  have hready : Ready (s.writeAll (loadKeyWrites key)) := by
    rw [hload]
    exact ⟨h.busy, h.rst⟩
  have hexec := exec_expand_of_key (v := v) (s := { s.writeAll (loadKeyWrites key) with
    pending := encode (instrOf .expand v), busy := true }) (by rw [hload]; exact hne)
  refine ⟨_, (if_neg hkey).trans (runCommand_ok hready hexec rfl), ⟨rfl, hready.rst⟩, rfl, rfl, ?_⟩
  simp only [hload, hexp, scheduleOf]

end

/-! ### Blocks one after another (R121 steps 4 and 5, R122 step 3) -/

section
variable {op : Op} {v : Variant} {W : Vector Word 80}

/-- One block loaded and transformed. -/
theorem Keyed.loadAndTransform (ho : op = .enc ∨ op = .dec) {s : State} (h : Keyed v W s) {block : List Byte}
    (hlen : block.length = bs v) : ∃ t, runCommand (s.writeAll (loadDataWrites block)) (commandOf op v) = .ok t ∧
      Keyed v W t ∧ HoldsBytes (bs v) (cipherBlock op v W block) t := by
  obtain ⟨hkeyed, hholds⟩ := h.loadData (hlen.trans_le (bs_le v))
  rw [hlen] at hholds
  exact hkeyed.runCommand_transform ho hholds

/-- Each block is transformed on its own, and the last of them stays in `DATA`. -/
theorem Keyed.transformBlocks_ok (ho : op = .enc ∨ op = .dec) (blocks : List (List Byte)) :
    ∀ s : State, Keyed v W s → (∀ b ∈ blocks, b.length = bs v) →
      ∃ t, transformBlocks v op blocks s = .ok (t, (blocks.map (cipherBlock op v W)).flatten) ∧ Keyed v W t ∧
        ∀ b ∈ blocks.getLast?, HoldsBytes (bs v) (cipherBlock op v W b) t := by
  induction blocks with
  | nil => exact fun s h _ => ⟨s, rfl, h, by simp⟩
  | cons block rest ih =>
    intro s h hlen
    obtain ⟨hblock, hrest⟩ := List.forall_mem_cons.mp hlen
    obtain ⟨t, hrun, ht, hhold⟩ := h.loadAndTransform ho hblock
    obtain ⟨u, hblocks, hu, hlast⟩ := ih t ht hrest
    refine ⟨u, ?_, hu, ?_⟩
    · simp only [transformBlocks, hrun, hblocks, hhold.readBlock ht.toReady, List.map_cons, List.flatten_cons]
    · cases rest with
      | nil =>
        cases hblocks
        simpa using hhold
      | cons b rest => rwa [List.getLast?_cons_cons]

/-- The rest of the plaintext is padded to a block and encrypted (R121 step 5). -/
theorem Keyed.encryptLast_ok {s : State} (h : Keyed v W s) {bytes : List Byte} (hlen : bytes.length < bs v) :
    ∃ t, encryptLast v bytes s = .ok (t, cipherBlock .enc v W (padBytes bytes (bs v))) ∧ Keyed v W t := by
  obtain ⟨hloaded, hbytes⟩ := h.loadData (hlen.le.trans (bs_le v))
  obtain ⟨s1, hpad, h1, hpadded⟩ := hloaded.runCommand_pad hlen hbytes
  obtain ⟨s2, henc, h2, hcipher⟩ := h1.runCommand_transform (.inl rfl) hpadded
  refine ⟨s2, ?_, h2⟩
  simp only [encryptLast, hpad, henc, hcipher.readBlock h2.toReady]

end

/-! ### Whole messages (R121, R122) -/

/-- The part of a message past its whole blocks. -/
def lastBytes (v : Variant) (m : List Byte) : List Byte := m.drop (m.length / bs v * bs v)

/-- The blocks of a padded message: its whole blocks, and its rest padded to a block. -/
def paddedBlocks (v : Variant) (m : List Byte) : List (List Byte) :=
  blocksOf (bs v) m (m.length / bs v) ++ [padBytes (lastBytes v m) (bs v)]

section
variable (v : Variant) (m : List Byte)

theorem length_lastBytes : (lastBytes v m).length = m.length % bs v := by
  have := Nat.div_add_mod' m.length (bs v)
  rw [lastBytes, List.length_drop]
  omega

theorem length_lastBytes_lt : (lastBytes v m).length < bs v := by
  rw [length_lastBytes]
  exact Nat.mod_lt _ (bs_pos v)

theorem paddedBlocks_flatten : (paddedBlocks v m).flatten = padBytes m (bs v) := by
  rw [paddedBlocks, List.flatten_append, List.flatten_singleton, blocksOf_flatten, padBytes, padBytes,
    length_lastBytes, Nat.mod_mod, ← List.append_assoc, lastBytes, List.take_append_drop]

theorem length_of_mem_paddedBlocks : ∀ b ∈ paddedBlocks v m, b.length = bs v := by
  intro b hb
  rcases List.mem_append.mp hb with hb | hb
  · exact blocksOf_mem_length _ _ m (Nat.div_mul_le_self _ _) b hb
  · have hlt := length_lastBytes_lt v m
    rw [List.mem_singleton.mp hb, length_padBytes, Nat.mod_eq_of_lt hlt]
    omega

theorem length_paddedBlocks : (paddedBlocks v m).length = m.length / bs v + 1 := by
  rw [paddedBlocks, List.length_append, blocksOf_length, List.length_singleton]

end

/-- The ciphertext of a message: the ciphers of the blocks of the padded message (R121). -/
def ciphertext (v : Variant) (W : Vector Word 80) (m : List Byte) : List Byte :=
  ((paddedBlocks v m).map (cipherBlock .enc v W)).flatten

section
variable {v : Variant} {W : Vector Word 80} {key m : List Byte} {s s1 : State}

theorem length_ciphertext : (ciphertext v W m).length = bs v * (m.length / bs v + 1) := by
  simp [ciphertext, List.length_flatten, Function.comp_def, length_paddedBlocks, Nat.mul_comm]

/-- The ciphertext falls into the ciphers of the blocks again. -/
theorem blocksOf_ciphertext : blocksOf (bs v) (ciphertext v W m) (m.length / bs v + 1) =
    (paddedBlocks v m).map (cipherBlock .enc v W) := by
  rw [← length_paddedBlocks, ← List.length_map (cipherBlock .enc v W)]
  exact blocksOf_flatten_of _ _ (by simp)

/-- The ciphers of the blocks decrypt to the blocks. -/
theorem map_cipherBlock_dec_enc : ((paddedBlocks v m).map (cipherBlock .enc v W)).map (cipherBlock .dec v W) =
    paddedBlocks v m := by
  rw [List.map_map]
  exact (List.map_congr_left fun b hb => cipherBlock_dec_enc (length_of_mem_paddedBlocks v m b hb)).trans
    (List.map_id' _)

/-- `encrypt` gives the ciphertext of the message and leaves the schedule resident (R121). -/
theorem facadeEncrypt_of_keyed (hload : loadKeyAndExpand v key s = .ok s1) (h : Keyed v W s1) :
    ∃ t, facadeEncrypt v key m s = .ok (t, ciphertext v W m) ∧ Keyed v W t := by
  obtain ⟨s2, hblocks, h2, -⟩ := Keyed.transformBlocks_ok (op := .enc) (.inl rfl) (blocksOf (bs v) m _) s1 h
    (blocksOf_mem_length _ _ m (Nat.div_mul_le_self _ _))
  obtain ⟨s3, hlast, h3⟩ := h2.encryptLast_ok (length_lastBytes_lt v m)
  refine ⟨s3, ?_, h3⟩
  rw [lastBytes] at hlast
  simp [facadeEncrypt, hload, hblocks, hlast, ciphertext, paddedBlocks, lastBytes]

/-- Decrypting the blocks of the ciphertext gives the padded message, whose last block stays in `DATA`. -/
theorem Keyed.decryptBlocks_ok (h : Keyed v W s1) :
    ∃ t, transformBlocks v .dec (blocksOf (bs v) (ciphertext v W m) (m.length / bs v + 1)) s1 =
      .ok (t, padBytes m (bs v)) ∧ Keyed v W t ∧ HoldsBytes (bs v) (padBytes (lastBytes v m) (bs v)) t := by
  obtain ⟨t, hblocks, ht, hlast⟩ := Keyed.transformBlocks_ok (op := .dec) (.inr rfl)
    ((paddedBlocks v m).map (cipherBlock .enc v W)) s1 h (by simp)
  rw [map_cipherBlock_dec_enc, paddedBlocks_flatten] at hblocks
  have hmem : padBytes (lastBytes v m) (bs v) ∈ paddedBlocks v m := by simp [paddedBlocks]
  have hhold := hlast (cipherBlock .enc v W (padBytes (lastBytes v m) (bs v))) (by simp [paddedBlocks])
  rw [cipherBlock_dec_enc (length_of_mem_paddedBlocks v m _ hmem)] at hhold
  exact ⟨t, by rw [blocksOf_ciphertext, hblocks], ht, hhold⟩

/-- `decrypt` with the same schedule gives the message back from its ciphertext (R122). -/
theorem facadeDecrypt_ciphertext (hload : loadKeyAndExpand v key s = .ok s1) (h : Keyed v W s1) :
    ∃ t, facadeDecrypt v key (ciphertext v W m) s = .ok (t, m) := by
  have hbs := bs_pos v
  have hle := bs_le v
  have hlt := length_lastBytes_lt v m
  obtain ⟨s2, hblocks, h2, hlast⟩ := h.decryptBlocks_ok (m := m)
  obtain ⟨s3, hunpad, h3, hdlen⟩ := h2.runCommand_unpad hlt hlast
  have hgood : ¬((ciphertext v W m).length = 0 ∨ (ciphertext v W m).length % bs v ≠ 0) := by
    simp [length_ciphertext, hbs.ne']
  have hcount : (ciphertext v W m).length / bs v = m.length / bs v + 1 := by
    rw [length_ciphertext, Nat.mul_div_cancel_left _ hbs]
  have htake : m.length / bs v * bs v + (BitVec.ofNat 32 (lastBytes v m).length).toNat = m.length := by
    rw [BitVec.toNat_ofNat, Nat.mod_eq_of_lt (by omega), length_lastBytes, Nat.div_add_mod']
  refine ⟨s3, ?_⟩
  simp only [facadeDecrypt, if_neg hgood, hload, hcount, hblocks, hunpad, memRead_dlen h3.rst h3.busy, hdlen,
    Nat.add_sub_cancel, htake]
  rw [padBytes, List.take_left]

end

/-- Settles O54: the second expansion of the key stores the schedule that is there already, so `decrypt` undoes the
ciphers of the padded message's blocks, and UNPAD finds how long the rest of the message was. -/
theorem facadeDecryptUndoesEncrypt : Obligations.FacadeDecryptUndoesEncrypt := by
  intro v key m s hb hr hkey hlen
  obtain ⟨s1, hload, h1⟩ := Ready.loadKeyAndExpand_ok (v := v) ⟨hb, hr⟩ hkey hlen
  obtain ⟨t, henc, ht⟩ := facadeEncrypt_of_keyed (m := m) hload h1
  obtain ⟨t1, hload', ht1⟩ := Ready.loadKeyAndExpand_ok (v := v) ht.toReady hkey hlen
  rw [ht.sched, scheduleOf_idem] at ht1
  exact ⟨t, _, henc, by rw [length_ciphertext, length_padBytes_eq_mul m (bs_pos v)],
    facadeDecrypt_ciphertext hload' ht1⟩

end Sys2Proof.Machine

/-! ## Proofs: reset, hazards and progress (70_reset_and_hazards.md) -/

namespace Sys2Proof.Machine

/-! ### The engine's step (R134) -/

/-- Settles O5: the engine moves, and its turn is the meaning of the command that `PENDING` decodes to. -/
theorem stepRunsTheCommandInPending : Obligations.StepRunsTheCommandInPending := by
  intro s i hm hb hr hd
  rw [step_of_engine hm]
  exact engineTurn_ok hb hr hd

/-- With a legal command in progress out of reset, the engine's step completes it. -/
theorem exists_command_step {s : State} (hm : s.mover = .engine) (hb : s.busy = true) (hr : s.rst = false)
    (hl : legalWord s.pending = true) : ∃ i t, step s = .next t ∧ CommandEffect i s.popTurn t := by
  obtain ⟨i, hi⟩ := decode_of_legalWord hl
  obtain ⟨t, hexec, heffect⟩ := exec_effect i s.popTurn
  exact ⟨i, t, (stepRunsTheCommandInPending s i hm hb hr hi).trans hexec, heffect⟩

/-! ### Clock edges (R125, R126) -/

/-- At a clock edge, the step samples the level of `rst`. -/
theorem step_of_edge {s : State} {r : Bool} (h : s.mover = .edge r) : step s = .next (s.popTurn.clockEdge r) := by
  simp only [step, h]

/-- Settles O48: the edge sets every register from nothing but the counter of free values, so that all but the host and
the turns is as in the reset state. -/
theorem resetEdgeAbandonsTheCommand : Obligations.ResetEdgeAbandonsTheCommand := fun _ hm => step_of_edge hm

/-- Settles O49: while `rst = 1` every host write is ignored and the engine is not enabled. -/
theorem coreIsHeldWhileInReset : Obligations.CoreIsHeldWhileInReset := by
  intro s hr
  refine ⟨fun hedge => ?_, fun hm => step_of_edge hm⟩
  cases hm : s.mover with
  | host =>
    obtain ⟨h, n, hturn⟩ := hostTurn_held s.popTurn fun a v => memWrite_rst _ a v hr
    exact ⟨h, n, by rw [step_of_host hm, hturn]; rfl⟩
  | engine =>
    refine ⟨s.host, s.free, ?_⟩
    rw [step_of_engine hm]
    exact engineTurn_idle (by simp [hr])
  | edge r => exact absurd hm (hedge r)

/-! ### Runs -/

/-- A run takes its first step and goes on from there. -/
theorem run_succ_of_step {s u : State} (h : step s = .next u) (n : Nat) : core.run (n + 1) s = core.run n u := by
  have hcore : core.step s = .next u := h
  simp only [Host.Core.run, hcore]

/-- The invariant leaves a command in progress only out of reset (R125). -/
theorem State.Inv.rst_of_busy {s : State} (hs : s.Inv) (hb : s.busy = true) : s.rst = false := by
  refine Bool.eq_false_iff.mpr fun hr => ?_
  obtain ⟨-, -, -, -, hidle, -⟩ := hs.heldInReset hr
  simp [hidle] at hb

/-- Settles O53, by induction on the turns laid down: each is taken by a step that keeps the invariant, and once none is
left a busy engine moves. -/
theorem everyCommandTerminates : Obligations.EveryCommandTerminates := by
  intro s hs
  generalize hts : s.turns = ts
  induction ts generalizing s with
  | nil =>
    cases hb : s.busy with
    | false => exact ⟨0, s, by omega, rfl, hb⟩
    | true =>
      have hr := hs.rst_of_busy hb
      have hm : s.mover = .engine := by simp [State.mover_of_noTurns hts, hb, hr]
      obtain ⟨i, t, hstep, heffect⟩ := exists_command_step hm hb hr (hs.pendingLegal hb)
      exact ⟨1, t, by simp, run_succ_of_step hstep 0, heffect.busy_eq⟩
  | cons turn ts ih =>
    obtain ⟨u, hstep⟩ := exists_step_of_inv hs
    have hu : u.turns = ts := by rw [(step_effect hstep).turns_eq, hts, List.tail_cons]
    obtain ⟨n, t, hn, hrun, ht⟩ := ih u (everyStepKeepsTheInvariant s u hs hstep) hu
    exact ⟨n + 1, t, by simpa using hn, (run_succ_of_step hstep n).trans hrun, ht⟩

/-! ### A write issued without waiting (R129) -/

/-- What the host does next depends on the host alone. -/
theorem State.nextHostOp_congr {s t : State} (h : t.host = s.host) : t.nextHostOp = s.nextHostOp := by
  simp only [State.nextHostOp, h]

/-- Where the host moves and its next operation is a write, the step is that transaction, and the host goes on. -/
theorem step_of_hostWrite {s : State} {a : WordAddr} {v : Word} (hm : s.mover = .host)
    (hop : s.nextHostOp = some (.wr a v)) : step s = .next (memWrite s.popTurn a v).advanceHost := by
  have hturn : s.popTurn.hostTurn = s.popTurn.hostOp (.wr a v) := by
    simp only [State.hostTurn, State.nextHostOp_popTurn, hop]
  rw [step_of_host hm, hturn, State.hostOp]

/-- Settles O39: before the engine's turn the host's write meets `BUSY = 1` and is ignored; after it the core is idle
and the host still stands at its write. -/
theorem writeWithoutWaitingRacesTheCommand : Obligations.WriteWithoutWaitingRacesTheCommand := by
  intro s v hb hr hl hop
  constructor
  · obtain ⟨h, n, hhost⟩ := hostTurnWhileBusyLeavesTheCoreAlone { s with turns := [.host, .engine] } hb rfl
    obtain ⟨i, t, hengine, heffect⟩ :=
      exists_command_step (s := { s with host := h, free := n, turns := [.engine] }) rfl hb hr hl
    have hrun := (run_succ_of_step hhost 1).trans (run_succ_of_step hengine 0)
    exact ⟨t, hrun, heffect.keylen_eq, heffect.busy_eq⟩
  · obtain ⟨i, u, hengine, heffect⟩ := exists_command_step (s := { s with turns := [.engine, .host] }) rfl hb hr hl
    have hm : u.mover = .host := State.mover_of_turns heffect.turns_eq
    have hopu : u.nextHostOp = some (.wr HostReg.keylen.addr v) := (State.nextHostOp_congr heffect.host_eq).trans hop
    have hwrite := step_of_hostWrite hm hopu
    rw [memWrite_keylen (s := u.popTurn) (heffect.rst_eq.trans hr) heffect.busy_eq] at hwrite
    have hrun := (run_succ_of_step hengine 1).trans (run_succ_of_step hwrite 0)
    exact ⟨_, hrun, rfl, heffect.busy_eq⟩

end Sys2Proof.Machine
